-- ==== Sys2Proof/Word.lean ====
section
/-! DEFINITION. The word types of the machine: a byte is a memory cell or an 8-bit register, a word is a 16-bit
register or an address (10_state.md R10, 20_memory.md R48), and a key indexes the instruction table
(30_encoding.md R61). Arithmetic is that of BitVec, so every write is reduced modulo 2^width (10_state.md R11). -/

namespace Sys2Proof

/-- 8 bits: `A`, `B`, `DP`, `CC`, one memory cell, one instruction byte. -/
abbrev Byte := BitVec 8

/-- 16 bits: `PC`, `X`, `Y`, `SP`, `U`, an address. -/
abbrev Word := BitVec 16

/-- The integer the instruction table is indexed by: an opcode byte, or `prefix<<8 | next byte` (R61). -/
abbrev Key := BitVec 16

end Sys2Proof
end

