-- ==== Sys2Proof/Config.lean ====
section
/-! DEFINITION. What is fixed for a machine: the parameters the spec decides (00_scope.md R3, R4) as constants, the
free values (93_implementation_defined.md U5, U6) as opaque constants, and the parameters the spec leaves OPEN
as a record a state carries and nothing changes (log 1). -/

namespace Sys2Proof

/-- Memory has exactly 65536 cells (R3, R18). -/
def Config.memSize : Nat := 65536

/-- `IRQ_VECTOR_ADDR`: the spec's decision D16 (R4, R186). -/
def Config.irqVectorAddr : Word := 0xFFF8#16

/-- `FETCH_VIA_DEVICE`: the spec's decision D17, fetch reads the raw array (R4, R58, R80). -/
def Config.fetchViaDevice : Bool := false

/-- The two escape prefixes (R3, R61). -/
def Config.escapes : List Byte := [0x10#8, 0x11#8]

/-- FREE VALUE: `kbd_buffer` at power-on, before any byte has arrived (R195, U5; log 2). -/
opaque Config.kbdPowerOnByte : Byte

/-- FREE VALUE: what the raw cell at `KBD_DATA_ADDR` holds after the n-th input arrival (R197, U6; log 3). -/
opaque Config.kbdPublishedData : Nat → Byte

/-- FREE VALUE: what the raw cell at `KBD_STATUS_ADDR` holds after the n-th input arrival (R197, U6; log 3). -/
opaque Config.kbdPublishedStatus : Nat → Byte

/-- The addresses an attached keyboard claims (R194). -/
structure KbdPorts where
  /-- `KBD_DATA_ADDR`. -/
  dataAddr : Word
  /-- `KBD_STATUS_ADDR`. -/
  statusAddr : Word
deriving DecidableEq, Repr

/-- The OPEN parameters of R4: the model takes them as an argument, which the state carries (log 1). -/
structure Params where
  /-- `KBD_ATTACHED` is `kbd.isSome`; the addresses exist only with the device. -/
  kbd : Option KbdPorts
  /-- `WAIT_OPCODE`, absent by default (R71). -/
  waitOpcode : Option Key
deriving DecidableEq, Repr

/-- No device attached and no wait opcode: the values the spec's vectors assume (95_test_vectors.md, log 1). -/
def Params.standard : Params := { kbd := none, waitOpcode := none }

end Sys2Proof
end

