-- ==== Sys2Proof/Syntax.lean ====
section
/-! DEFINITION. The instructions: one constructor for each row of spec/opcode_table.json, with its operands decoded
(30_encoding.md R62 to R64). -/

namespace Sys2Proof

/-- What a 4-bit register code of EXG and TFR names (44_stack_regmove.md R159). An unmapped code keeps its number, so
that its encoding is not lost. -/
inductive RegCode where
  | d | x | y | u | sp | pc | a | b | cc | dp
  | unmapped (code : BitVec 4)
deriving DecidableEq, Repr

/-- The admitted set (R64), in the order of spec/opcode_table.json. -/
inductive Instr where
  | nop
  | sync
  | exg (r1 r2 : RegCode)
  | tfr (r1 r2 : RegCode)
  | bra (rel8 : Byte)
  | leax (soff8 : Byte)
  | pshs (mask : Byte)
  | puls (mask : Byte)
  | rts
  | rti
  | mul
  | deca
  | inca
  | decb
  | incb
  | suba (imm8 : Byte)
  | anda (imm8 : Byte)
  | lda (imm8 : Byte)
  | eora (imm8 : Byte)
  | ora (imm8 : Byte)
  | adda (imm8 : Byte)
  | sta (off8 : Byte)
  | subb (imm8 : Byte)
  | andb (imm8 : Byte)
  | ldb (imm8 : Byte)
  | eorb (imm8 : Byte)
  | orb (imm8 : Byte)
  | addb (imm8 : Byte)
  | stb (off8 : Byte)
deriving DecidableEq, Repr

end Sys2Proof
end

