-- ==== Sys2Proof/WellFormed.lean ====
section
/-! DEFINITION. Which terms of `Instr` stand for an instruction. Every operand byte is legal (30_encoding.md R67); the
one check is that a register code marked unmapped is one of the codes the table of R159 leaves unmapped. -/

namespace Sys2Proof

/-- The codes that name no register: 6, 7, 12 to 15 (R159). -/
def unmappedCodes : List (BitVec 4) := [6#4, 7#4, 12#4, 13#4, 14#4, 15#4]

/-- `unmapped c` stands for a code only when the table names no register for `c`. -/
def RegCode.wf : RegCode → Bool
  | .unmapped c => unmappedCodes.contains c
  | .d | .x | .y | .u | .sp | .pc | .a | .b | .cc | .dp => true

/-- Both register codes of EXG and TFR must be well-formed; no other operand has an illegal value (R67). -/
def Instr.wf : Instr → Bool
  | .exg r1 r2 | .tfr r1 r2 => r1.wf && r2.wf
  | .nop | .sync | .bra _ | .leax _ | .pshs _ | .puls _ | .rts | .rti | .mul
  | .deca | .inca | .decb | .incb
  | .suba _ | .anda _ | .lda _ | .eora _ | .ora _ | .adda _ | .sta _
  | .subb _ | .andb _ | .ldb _ | .eorb _ | .orb _ | .addb _ | .stb _ => true

end Sys2Proof
end

