-- ==== Sys2Proof/Decode.lean ====
section
/-! DEFINITION. The instruction decoder (30_encoding.md): key formation, the opcode table, decoding of a list of bytes,
and the encoder written from the same table. -/

namespace Sys2Proof

/-! ### Register codes (44_stack_regmove.md R159) -/

/-- The register a 4-bit code names (R159). -/
def RegCode.ofNibble (c : BitVec 4) : RegCode :=
  match c.toNat with
  | 0 => .d
  | 1 => .x
  | 2 => .y
  | 3 => .u
  | 4 => .sp
  | 5 => .pc
  | 8 => .a
  | 9 => .b
  | 10 => .cc
  | 11 => .dp
  | _ => .unmapped c

/-- The code of a register (R159). -/
def RegCode.toNibble : RegCode → BitVec 4
  | .d => 0#4
  | .x => 1#4
  | .y => 2#4
  | .u => 3#4
  | .sp => 4#4
  | .pc => 5#4
  | .a => 8#4
  | .b => 9#4
  | .cc => 10#4
  | .dp => 11#4
  | .unmapped c => c

/-- `r1`: the first register code of a RR post-byte, bits 7:4 (R62, R63). -/
def postbyteR1 (pb : Byte) : RegCode := .ofNibble (pb.extractLsb' 4 4)

/-- `r2`: the second register code of a RR post-byte, bits 3:0 (R62, R63). -/
def postbyteR2 (pb : Byte) : RegCode := .ofNibble (pb.extractLsb' 0 4)

/-- The RR post-byte of two register codes: the first in bits 7:4 (R62). -/
def postbyteOf (r1 r2 : RegCode) : Byte := r1.toNibble ++ r2.toNibble

/-! ### Keys (R61) -/

/-- The two reserved opcode values that announce a second opcode byte (R61). -/
def isEscape (op : Byte) : Bool := Config.escapes.contains op

/-- The key of an unprefixed opcode. -/
def byteKey (op : Byte) : Key := op.setWidth 16

/-- `prefix<<8 | next byte`. -/
def escapedKey (op op2 : Byte) : Key := op ++ op2

/-! ### The opcode table (R64) -/

/-- What a mapped key stands for: an INH instruction, or one that takes one operand byte (R62). -/
inductive TableEntry where
  | inherent (i : Instr)
  | withByte (make : Byte → Instr)

/-- System, register-move and control rows of R64. -/
def opcodeTableSystem : List (Key × TableEntry) :=
  [ (0x12#16, .inherent .nop),
    (0x13#16, .inherent .sync),
    (0x1E#16, .withByte fun pb => .exg (postbyteR1 pb) (postbyteR2 pb)),
    (0x1F#16, .withByte fun pb => .tfr (postbyteR1 pb) (postbyteR2 pb)),
    (0x20#16, .withByte .bra),
    (0x30#16, .withByte .leax),
    (0x34#16, .withByte .pshs),
    (0x35#16, .withByte .puls),
    (0x39#16, .inherent .rts),
    (0x3B#16, .inherent .rti) ]

/-- Accumulator rows of R64. -/
def opcodeTableAccumulator : List (Key × TableEntry) :=
  [ (0x3D#16, .inherent .mul),
    (0x4A#16, .inherent .deca),
    (0x4C#16, .inherent .inca),
    (0x5A#16, .inherent .decb),
    (0x5C#16, .inherent .incb),
    (0x80#16, .withByte .suba),
    (0x84#16, .withByte .anda),
    (0x86#16, .withByte .lda),
    (0x88#16, .withByte .eora),
    (0x8A#16, .withByte .ora),
    (0x8B#16, .withByte .adda),
    (0x97#16, .withByte .sta) ]

/-- The B rows of R64. -/
def opcodeTableB : List (Key × TableEntry) :=
  [ (0xC0#16, .withByte .subb),
    (0xC4#16, .withByte .andb),
    (0xC6#16, .withByte .ldb),
    (0xC8#16, .withByte .eorb),
    (0xCA#16, .withByte .orb),
    (0xCB#16, .withByte .addb),
    (0xD7#16, .withByte .stb) ]

/-- The 29 mapped keys (R64); every other key is unmapped (R65). -/
def opcodeTable : List (Key × TableEntry) :=
  opcodeTableSystem ++ opcodeTableAccumulator ++ opcodeTableB

/-- The table lookup of R82 item 5, for the 29 rows. -/
def lookupKey (k : Key) : Option TableEntry := opcodeTable.lookup k

/-- The mapped keys. -/
def mappedKeys : List Key := opcodeTable.map Prod.fst

/-- WAIT_OPCODE may take this key: one byte (format INH), not an escape prefix and not in the table (R71; log 6). -/
def waitKeyLegal (k : Key) : Bool :=
  decide (k.toNat < 256) && !mappedKeys.contains k && !Config.escapes.contains (k.setWidth 8)

/-! ### Decoding bytes -/

/-- Why a list of bytes is no instruction of the table. -/
inductive DecodeError where
  /-- The key is unmapped (R65): the machine halts on it (R181) unless it is WAIT_OPCODE (R71). -/
  | unknownOpcode (key : Key)
  /-- The list ends inside an instruction; a fetch from memory never does. -/
  | truncated
deriving DecidableEq, Repr

/-- Look the key up and take its operand byte, if it has one (R62, R63). -/
def decodeKey (k : Key) (rest : List Byte) : Except DecodeError (Instr × List Byte) :=
  match lookupKey k with
  | none => .error (.unknownOpcode k)
  | some (.inherent i) => .ok (i, rest)
  | some (.withByte make) =>
    match rest with
    | [] => .error .truncated
    | b :: rest' => .ok (make b, rest')

/-- Decode the instruction at the head of a list of bytes, and the bytes after it (R60 to R68). -/
def decode : List Byte → Except DecodeError (Instr × List Byte)
  | [] => .error .truncated
  | op :: rest =>
    if isEscape op then
      match rest with
      | [] => .error .truncated
      | op2 :: rest' => decodeKey (escapedKey op op2) rest'
    else decodeKey (byteKey op) rest

/-! ### Encoding -/

/-- The bytes of an instruction, first fetched byte first (R62, R64). -/
def encode : Instr → List Byte
  | .nop => [0x12#8]
  | .sync => [0x13#8]
  | .exg r1 r2 => [0x1E#8, postbyteOf r1 r2]
  | .tfr r1 r2 => [0x1F#8, postbyteOf r1 r2]
  | .bra rel8 => [0x20#8, rel8]
  | .leax soff8 => [0x30#8, soff8]
  | .pshs mask => [0x34#8, mask]
  | .puls mask => [0x35#8, mask]
  | .rts => [0x39#8]
  | .rti => [0x3B#8]
  | .mul => [0x3D#8]
  | .deca => [0x4A#8]
  | .inca => [0x4C#8]
  | .decb => [0x5A#8]
  | .incb => [0x5C#8]
  | .suba imm8 => [0x80#8, imm8]
  | .anda imm8 => [0x84#8, imm8]
  | .lda imm8 => [0x86#8, imm8]
  | .eora imm8 => [0x88#8, imm8]
  | .ora imm8 => [0x8A#8, imm8]
  | .adda imm8 => [0x8B#8, imm8]
  | .sta off8 => [0x97#8, off8]
  | .subb imm8 => [0xC0#8, imm8]
  | .andb imm8 => [0xC4#8, imm8]
  | .ldb imm8 => [0xC6#8, imm8]
  | .eorb imm8 => [0xC8#8, imm8]
  | .orb imm8 => [0xCA#8, imm8]
  | .addb imm8 => [0xCB#8, imm8]
  | .stb off8 => [0xD7#8, off8]

/-! ### Words as spec/opcode_table.json numbers them -/

/-- The bytes of a table word, first fetched byte first, out to the longest instruction (two bytes). The table reads a
row's bytes as one number whose MOST significant byte is the first fetched (its match 0x1E00 is 1E then the
post-byte); a one-byte row's missing operand byte is zero (log 12). -/
def tableBytes (nbits w : Nat) : List Byte :=
  if nbits ≤ 8 then [BitVec.ofNat 8 w, 0#8]
  else [BitVec.ofNat 8 (w >>> (nbits - 8)), BitVec.ofNat 8 (w >>> (nbits - 16))]

/-- The instruction the decoder reads from a table word. -/
def decodeTableWord (nbits w : Nat) : Option Instr :=
  match decode (tableBytes nbits w) with
  | .ok (i, _) => some i
  | .error _ => none

end Sys2Proof
end

