-- ==== Sys2Proof/Machine/State.lean ====
section
/-! DEFINITION. The state of the machine, all of it plain data (10_state.md), the reasons a step can stop, and the state
right after reset. -/

namespace Sys2Proof.Machine

/-- No step of this machine stops with a fault: the one fault of the spec, an unknown opcode, has an effect the spec
describes (R181) and is a next state (log 10), and "no operation of the core signals an error to its caller" (R203).
So the type has no constructor: nobody raises one, which is safe. -/
inductive Fault where
deriving DecidableEq, Repr

/-- The reasons to refuse an instruction. -/
inductive Refusal where
  /-- Raised by an arm of exec whose instruction has no meaning yet. No arm does: every instruction is modelled. Safe. -/
  | notModelled (mnemonic : String)
deriving DecidableEq, Repr

/-- The run states (R19). -/
inductive RunState where
  | running
  | halted
  | waitingForInterrupt
deriving DecidableEq, Repr

/-- The report an unknown opcode leaves (R24, R181): `fault_key` and `fault_addr`, which have a meaning only while
`fault_valid` holds (R30). -/
structure FaultRecord where
  key : Key
  addr : Word
deriving DecidableEq, Repr

/-- Memory: (address, byte) pairs in one canonical form (`Memory.wf`, Machine/Ops.lean). -/
abbrev Memory := List Host.Cell

/-- Everything the spec gives the machine (10_state.md R10 to R25), the parameters it leaves open (log 1) and one field
of the model's own, `freeCount` (log 3). -/
structure State where
  /-- `A`. -/
  a : Byte
  /-- `B`. -/
  b : Byte
  /-- `X`. -/
  x : Word
  /-- `Y`. -/
  y : Word
  /-- `U`. -/
  u : Word
  /-- `SP`. -/
  sp : Word
  /-- `PC`. -/
  pc : Word
  /-- `DP`. -/
  dp : Byte
  /-- `CC`, bits E F H I N Z V C from 7 down to 0 (R13). -/
  cc : Byte
  /-- The 65536 cells (R18). -/
  mem : Memory
  /-- `run_state` (R19). -/
  runState : RunState
  /-- `irq_pending` (R20). -/
  irqPending : Bool
  /-- `breakpoints`, strictly rising (R21). -/
  breakpoints : List Word
  /-- `instr_count` (R22). -/
  instrCount : Nat
  /-- `last_ea` (R23). -/
  lastEa : Word
  /-- `last_postbyte` (R23). -/
  lastPostbyte : Byte
  /-- `fault_valid`, `fault_key`, `fault_addr` (R24, log 9). -/
  faultRecord : Option FaultRecord
  /-- `kbd_buffer` (R25). -/
  kbdBuffer : Byte
  /-- `kbd_pending` (R25). -/
  kbdPending : Bool
  /-- The MODEL's own: how many free values have been drawn (log 3). -/
  freeCount : Nat
  /-- The OPEN parameters (R4, log 1). -/
  params : Params
deriving DecidableEq, Repr

/-- The state at power-on with given parameters (R30, R221). -/
def State.powerOn (p : Params) : State where
  a := 0x00#8
  b := 0x00#8
  x := 0x0000#16
  y := 0x0000#16
  u := 0xFFFE#16
  sp := 0xFFFE#16
  pc := 0x0000#16
  dp := 0x00#8
  cc := 0x00#8
  mem := []
  runState := .running
  irqPending := false
  breakpoints := []
  instrCount := 0
  lastEa := 0x0000#16
  lastPostbyte := 0x00#8
  faultRecord := none
  kbdBuffer := Config.kbdPowerOnByte
  kbdPending := false
  freeCount := 0
  params := p

/-- The machine right after reset (R30), with no device attached and no wait opcode (log 1). -/
def State.reset : State := .powerOn .standard

end Sys2Proof.Machine
end

