-- ==== Sys2Proof/Machine/Flags.lean ====
section
/-! DEFINITION. The condition codes and the four flag algorithms (10_state.md R13, R14; 41_alu_flags.md R100 to R104).
Every flag change of the machine is one of these algorithms, a whole-CC write, or the E and I writes of the interrupt
service (R104). -/

namespace Sys2Proof.Machine

/-- The eight bits of CC, most significant first (R13). -/
inductive Flag where
  | e | f | h | i | n | z | v | c
deriving DecidableEq, Repr

/-- The mask of each bit (R13). -/
def Flag.mask : Flag → Byte
  | .e => 0x80#8
  | .f => 0x40#8
  | .h => 0x20#8
  | .i => 0x10#8
  | .n => 0x08#8
  | .z => 0x04#8
  | .v => 0x02#8
  | .c => 0x01#8

/-- A bit of a CC value (R14). -/
def ccGet (cc : Byte) (bit : Flag) : Bool := (cc &&& bit.mask) != 0#8

/-- A CC value with one bit replaced, the other seven kept (R14). -/
def ccSet (cc : Byte) (bit : Flag) (b : Bool) : Byte :=
  if b then cc ||| bit.mask else cc &&& ~~~bit.mask

/-- `getFlag(bit)` (R14). -/
def State.getFlag (s : State) (bit : Flag) : Bool := ccGet s.cc bit

/-- `setFlag(bit, b)` (R14). -/
def State.setFlag (s : State) (bit : Flag) (b : Bool) : State := { s with cc := ccSet s.cc bit b }

/-! ### The algorithms on a CC value -/

/-- N and Z from an 8-bit result (R100). -/
def ccNZ8 (cc : Byte) (m : Byte) : Byte := ccSet (ccSet cc .n (m.getLsbD 7)) .z (m == 0#8)

/-- N and Z from a 16-bit result (R101). -/
def ccNZ16 (cc : Byte) (m : Word) : Byte := ccSet (ccSet cc .n (m.getLsbD 15)) .z (m == 0#16)

/-- C, V and H of an addition with the unmasked sum `s` (R102). -/
def ccAdd8 (cc : Byte) (a m : Byte) (s : BitVec 9) : Byte :=
  ccSet
    (ccSet (ccSet cc .c (s.getLsbD 8)) .v
      (a.getLsbD 7 == m.getLsbD 7 && s.getLsbD 7 != a.getLsbD 7))
    .h (a.getLsbD 4 ^^ m.getLsbD 4 ^^ s.getLsbD 4)

/-- C and V of a subtraction with the unmasked difference `d` (R103). -/
def ccSub8 (cc : Byte) (a m : Byte) (d : BitVec 9) : Byte :=
  ccSet (ccSet cc .c (d.getLsbD 8)) .v
    (a.getLsbD 7 != m.getLsbD 7 && d.getLsbD 7 != a.getLsbD 7)

/-! ### The algorithms on the state -/

/-- `SetNZ8` of a result already reduced modulo 256 (R100). -/
def State.setNZ8 (s : State) (m : Byte) : State := { s with cc := ccNZ8 s.cc m }

/-- `SetNZ16` of a result already reduced modulo 65536 (R101). -/
def State.setNZ16 (s : State) (m : Word) : State := { s with cc := ccNZ16 s.cc m }

/-- The unmasked 9-bit sum (R102). -/
def sum9 (a m : Byte) : BitVec 9 := a.setWidth 9 + m.setWidth 9

/-- The unmasked difference, as the 9 low bits of its two's complement (R103). -/
def diff9 (a m : Byte) : BitVec 9 := a.setWidth 9 - m.setWidth 9

/-- `AddFlags8(a, m, s)`: writes C, V and H (R102). -/
def State.addFlags8 (st : State) (a m : Byte) (s : BitVec 9) : State :=
  { st with cc := ccAdd8 st.cc a m s }

/-- `SubFlags8(a, m, d)`: writes C and V only (R103). -/
def State.subFlags8 (st : State) (a m : Byte) (d : BitVec 9) : State :=
  { st with cc := ccSub8 st.cc a m d }

end Sys2Proof.Machine
end

