-- ==== Sys2Proof/Machine/Ops.lean ====
section
/-! DEFINITION. The named operations over memory and registers: the memory array, the keyboard's answers, the core's
accessor, fetch, the stack, multi-register push and pull, the unknown-opcode fault, the interrupt and its return
(20_memory.md, 40_fetch_step.md, 44_stack_regmove.md, 60_exceptions.md). -/

namespace Sys2Proof.Machine

/-! ### The memory array (R18, R41) -/

/-- What an address that is not listed reads as: memory is zero-filled on construction and on reset (R18). -/
def Memory.unlisted : Byte := 0x00#8

/-- The cell at an address. -/
def Memory.read : Memory → Nat → Byte
  | [], _ => Memory.unlisted
  | (k, w) :: rest, a => if k = a then w else Memory.read rest a

/-- Store a byte, keeping the canonical form: storing what an unlisted address reads as removes the entry. -/
def Memory.write : Memory → Nat → Byte → Memory
  | [], a, v => if v = Memory.unlisted then [] else [(a, v)]
  | (k, w) :: rest, a, v =>
    if a < k then
      if v = Memory.unlisted then (k, w) :: rest else (a, v) :: (k, w) :: rest
    else if a = k then
      if v = Memory.unlisted then rest else (a, v) :: rest
    else (k, w) :: Memory.write rest a v

/-- The canonical form: addresses strictly rising, below 65536, no entry equal to what an unlisted address reads as. -/
abbrev Memory.wf (m : Memory) : Prop :=
  m.Pairwise (fun p q => p.1 < q.1) ∧ ∀ c ∈ m, c.1 < Config.memSize ∧ c.2 ≠ Memory.unlisted

/-- `size()`: the number of cells, whatever they hold (R57). -/
def Memory.size (_ : Memory) : Nat := Config.memSize

/-- `clear()`: every cell holds 0, so nothing is listed (R57). -/
def Memory.clear (_ : Memory) : Memory := []

/-- `RawRead(addr)` (R41). -/
def State.rawRead (s : State) (addr : Word) : Byte := Memory.read s.mem addr.toNat

/-- `RawWrite(addr, v)` (R41). -/
def State.rawWrite (s : State) (addr : Word) (v : Byte) : State :=
  { s with mem := Memory.write s.mem addr.toNat v }

/-! ### The keyboard's answers (R195, R196) -/

/-- `DeviceReadData()`: the buffered byte, and no byte is pending any more (R195). -/
def State.deviceReadData (s : State) : Byte × State := (s.kbdBuffer, { s with kbdPending := false })

/-- `DeviceReadStatus()`: 1 when a byte is pending, else 0 (R196). -/
def State.deviceReadStatus (s : State) : Byte := if s.kbdPending then 1#8 else 0#8

/-! ### The core's accessor (R42 to R45) -/

/-- `MemRead(addr, 1)`: the device is consulted before the array (R42). -/
def State.memRead (s : State) (addr : Word) : Byte × State :=
  match s.params.kbd with
  | some ports =>
    if addr = ports.dataAddr then s.deviceReadData
    else if addr = ports.statusAddr then (s.deviceReadStatus, s)
    else (s.rawRead addr, s)
  | none => (s.rawRead addr, s)

/-- `MemWrite(addr, 1, v)`: always the array, the device's addresses included (R43). -/
def State.memWrite (s : State) (addr : Word) (v : Byte) : State := s.rawWrite addr v

/-- `MemRead(addr, 2)`: the high byte at `addr` first, then the low byte at `addr + 1` (R44). -/
def State.memReadWord (s : State) (addr : Word) : Word × State :=
  let hi := s.memRead addr
  let lo := hi.2.memRead (addr + 1#16)
  (hi.1 ++ lo.1, lo.2)

/-- `v[15:8]`. -/
def highByte (v : Word) : Byte := v.extractLsb' 8 8

/-- `v[7:0]`. -/
def lowByte (v : Word) : Byte := v.extractLsb' 0 8

/-- `MemWrite(addr, 2, v)`: big-endian (R45, R46). -/
def State.memWriteWord (s : State) (addr : Word) (v : Word) : State :=
  (s.memWrite addr (highByte v)).memWrite (addr + 1#16) (lowByte v)

/-! ### The D alias (R12) -/

/-- Reading `D` (R12). -/
def State.d (s : State) : Word := s.a ++ s.b

/-- Writing `D` (R12). -/
def State.setD (s : State) (v : Word) : State := { s with a := highByte v, b := lowByte v }

/-! ### Fetch (R58, R80, R81) -/

/-- The layer a fetch reads through (R58): the raw array, `FETCH_VIA_DEVICE` being false. -/
def State.fetchRead (s : State) (addr : Word) : Byte × State :=
  if Config.fetchViaDevice then s.memRead addr else (s.rawRead addr, s)

/-- `FetchByte()` (R80). -/
def State.fetchByte (s : State) : Byte × State :=
  let r := s.fetchRead s.pc
  (r.1, { r.2 with pc := r.2.pc + 1#16 })

/-- `FetchWord()` (R81). -/
def State.fetchWord (s : State) : Word × State :=
  let hi := s.fetchByte
  let lo := hi.2.fetchByte
  (hi.1 ++ lo.1, lo.2)

/-! ### The stack (R150 to R153) -/

/-- `PushByte(v)` (R150). -/
def State.pushByte (s : State) (v : Byte) : State :=
  { s with sp := s.sp - 1#16 }.memWrite (s.sp - 1#16) v

/-- `PopByte()` (R151). -/
def State.popByte (s : State) : Byte × State :=
  let r := s.memRead s.sp
  (r.1, { r.2 with sp := r.2.sp + 1#16 })

/-- `PushWord(v)`: low byte first, so that the word is big-endian at the new SP (R152). -/
def State.pushWord (s : State) (v : Word) : State := (s.pushByte (lowByte v)).pushByte (highByte v)

/-- `PopWord()` (R153). -/
def State.popWord (s : State) : Word × State :=
  let hi := s.popByte
  let lo := hi.2.popByte
  (hi.1 ++ lo.1, lo.2)

/-! ### Multi-register push and pull (R154, R155) -/

/-- One line of R154 or R155: done only when its mask bit is set. -/
def State.whenBit (s : State) (bit : Bool) (f : State → State) : State := if bit then f s else s

/-- `PushMultiple(mask)`: PC, U, Y, X, DP, B, A, CC, in exactly that order (R154). -/
def State.pushMultiple (s : State) (mask : Byte) : State :=
  s |>.whenBit (mask.getLsbD 7) (fun s => s.pushWord s.pc)
    |>.whenBit (mask.getLsbD 6) (fun s => s.pushWord s.u)
    |>.whenBit (mask.getLsbD 5) (fun s => s.pushWord s.y)
    |>.whenBit (mask.getLsbD 4) (fun s => s.pushWord s.x)
    |>.whenBit (mask.getLsbD 3) (fun s => s.pushByte s.dp)
    |>.whenBit (mask.getLsbD 2) (fun s => s.pushByte s.b)
    |>.whenBit (mask.getLsbD 1) (fun s => s.pushByte s.a)
    |>.whenBit (mask.getLsbD 0) (fun s => s.pushByte s.cc)

/-- `PullMultiple(mask)`: CC, A, B, DP, X, Y, U, PC, in exactly that order (R155). -/
def State.pullMultiple (s : State) (mask : Byte) : State :=
  s |>.whenBit (mask.getLsbD 0) (fun s => { s.popByte.2 with cc := s.popByte.1 })
    |>.whenBit (mask.getLsbD 1) (fun s => { s.popByte.2 with a := s.popByte.1 })
    |>.whenBit (mask.getLsbD 2) (fun s => { s.popByte.2 with b := s.popByte.1 })
    |>.whenBit (mask.getLsbD 3) (fun s => { s.popByte.2 with dp := s.popByte.1 })
    |>.whenBit (mask.getLsbD 4) (fun s => { s.popWord.2 with x := s.popWord.1 })
    |>.whenBit (mask.getLsbD 5) (fun s => { s.popWord.2 with y := s.popWord.1 })
    |>.whenBit (mask.getLsbD 6) (fun s => { s.popWord.2 with u := s.popWord.1 })
    |>.whenBit (mask.getLsbD 7) (fun s => { s.popWord.2 with pc := s.popWord.1 })

/-- How many bytes `PushMultiple(mask)` pushes (R154). -/
def frameSize (mask : Byte) : Nat :=
  2 * ((mask.getLsbD 7).toNat + (mask.getLsbD 6).toNat + (mask.getLsbD 5).toNat + (mask.getLsbD 4).toNat)
    + (mask.getLsbD 3).toNat + (mask.getLsbD 2).toNat + (mask.getLsbD 1).toNat + (mask.getLsbD 0).toNat

/-! ### Taking an exception, and the return from one -/

/-- `raise UnknownOpcode(key, addr)`: the core halts and the fault record is written; nothing is pushed (R181). -/
def State.raiseUnknownOpcode (s : State) (key : Key) (addr : Word) : State :=
  { s with runState := .halted, faultRecord := some { key := key, addr := addr } }

/-- The mask of the full 12-byte frame (R185, R172). -/
def fullFrame : Byte := 0xFF#8

/-- `ServiceInterrupt()`: E set, the full frame pushed, I set, PC from the vector read after the push, Running, the
request cleared (R185, R186). -/
def State.serviceInterrupt (s : State) : State :=
  let masked := ((s.setFlag .e true).pushMultiple fullFrame).setFlag .i true
  let handler := masked.memReadWord Config.irqVectorAddr
  { handler.2 with pc := handler.1, runState := .running, irqPending := false }

/-- The return from an interrupt: the full frame is popped, whatever E says (R172, R190). -/
def State.returnFromInterrupt (s : State) : State := s.pullMultiple fullFrame

/-- `triggerIRQ()`: accepted only while CC.I is 0, otherwise dropped (R182 to R184). -/
def State.triggerIRQ (s : State) : State :=
  if s.getFlag .i then s else { s with irqPending := true }

/-! ### What a step does around an effect (R89, R90) -/

/-- A step that reaches the opcode fetch clears the introspection fields (R90). -/
def State.clearIntrospection (s : State) : State := { s with lastEa := 0#16, lastPostbyte := 0#8 }

/-- An executed effect is counted (R89). -/
def State.countInstruction (s : State) : State := { s with instrCount := s.instrCount + 1 }

end Sys2Proof.Machine
end

