-- ==== Sys2Proof/Machine/Operands.lean ====
section
/-! DEFINITION. The operand forms: immediate, direct page, indexed by a signed byte from X, extended, relative, and the
code-indexed registers of EXG and TFR (42_addressing_store_lea.md, 43_control_transfer.md, 44_stack_regmove.md). The
step fetches an instruction's operand byte before its meaning runs (log 11), so each address helper has a form that is
given the fetched byte, and the spec's own form that fetches it. -/

namespace Sys2Proof.Machine

/-- `sext_16` of a byte (R5, R63). -/
def sext16 (b : Byte) : Word := b.signExtend 16

/-! ### Addressing helpers (R130 to R133) -/

/-- The direct-page address `{DP, off}` (R130). -/
def State.directAddrOf (s : State) (off : Byte) : Word := s.dp ++ off

/-- `DirectAddr()` (R130). -/
def State.directAddr (s : State) : Word × State :=
  let off := s.fetchByte
  (off.2.directAddrOf off.1, off.2)

/-- The indexed address, X plus a signed byte modulo 65536 (R131). -/
def State.indexedAddrOf (s : State) (off : Byte) : Word := s.x + sext16 off

/-- What an indexed address leaves for introspection (R131). -/
def State.recordIndexed (s : State) (off : Byte) : State :=
  { s with lastPostbyte := off, lastEa := s.indexedAddrOf off }

/-- `IndexedAddr()` (R131). -/
def State.indexedAddr (s : State) : Word × State :=
  let off := s.fetchByte
  (off.2.indexedAddrOf off.1, off.2.recordIndexed off.1)

/-- `ExtendedAddr()`: a fetched word; no admitted instruction uses it (R132). -/
def State.extendedAddr (s : State) : Word × State :=
  let ea := s.fetchWord
  (ea.1, { ea.2 with lastPostbyte := 0#8, lastEa := ea.1 })

/-- `Immediate`: the fetched byte itself (R133). -/
def State.immediate (s : State) : Byte × State := s.fetchByte

/-- The target of BRA, from the address after its operand (R140). -/
def State.relativeTarget (s : State) (rel : Byte) : Word := s.pc + sext16 rel

/-! ### Registers by code (R159, R160) -/

/-- `RegRead(c)`: an 8-bit register is zero-extended, an unmapped code reads 0 (R159). -/
def State.readReg (s : State) : RegCode → Word
  | .d => s.d
  | .x => s.x
  | .y => s.y
  | .u => s.u
  | .sp => s.sp
  | .pc => s.pc
  | .a => s.a.setWidth 16
  | .b => s.b.setWidth 16
  | .cc => s.cc.setWidth 16
  | .dp => s.dp.setWidth 16
  | .unmapped _ => 0#16

/-- `RegWrite(c, v)`: an 8-bit register keeps the low byte, a write to an unmapped code is dropped (R160). -/
def State.writeReg (s : State) (r : RegCode) (v : Word) : State :=
  match r with
  | .d => s.setD v
  | .x => { s with x := v }
  | .y => { s with y := v }
  | .u => { s with u := v }
  | .sp => { s with sp := v }
  | .pc => { s with pc := v }
  | .a => { s with a := lowByte v }
  | .b => { s with b := lowByte v }
  | .cc => { s with cc := lowByte v }
  | .dp => { s with dp := lowByte v }
  | .unmapped _ => s

end Sys2Proof.Machine
end

