-- ==== Sys2Proof/Machine/Arithmetic.lean ====
section
/-! DEFINITION. Add, subtract, increment, decrement and multiply (41_alu_flags.md R107 to R110, R117 to R121). -/

namespace Sys2Proof.Machine

/-- The flags an add-class instruction writes: H, N, Z, V, C (R104, R107). -/
def State.flagsOfAdd (s : State) (a m : Byte) : State :=
  (s.addFlags8 a m (sum9 a m)).setNZ8 ((sum9 a m).setWidth 8)

/-- The flags a subtract-class instruction writes: N, Z, V, C (R104, R109). -/
def State.flagsOfSub (s : State) (a m : Byte) : State :=
  (s.subFlags8 a m (diff9 a m)).setNZ8 ((diff9 a m).setWidth 8)

/-- ADDA (R107). -/
def execAdda (imm8 : Byte) (s : State) : Host.Outcome State Fault Refusal :=
  .next { s.flagsOfAdd s.a imm8 with a := (sum9 s.a imm8).setWidth 8 }

/-- ADDB (R108). -/
def execAddb (imm8 : Byte) (s : State) : Host.Outcome State Fault Refusal :=
  .next { s.flagsOfAdd s.b imm8 with b := (sum9 s.b imm8).setWidth 8 }

/-- SUBA (R109). -/
def execSuba (imm8 : Byte) (s : State) : Host.Outcome State Fault Refusal :=
  .next { s.flagsOfSub s.a imm8 with a := (diff9 s.a imm8).setWidth 8 }

/-- SUBB (R110). -/
def execSubb (imm8 : Byte) (s : State) : Host.Outcome State Fault Refusal :=
  .next { s.flagsOfSub s.b imm8 with b := (diff9 s.b imm8).setWidth 8 }

/-- INCA: the carry is discarded and V is not written (R117). -/
def execInca (s : State) : Host.Outcome State Fault Refusal :=
  .next ({ s with a := s.a + 1#8 }.setNZ8 (s.a + 1#8))

/-- INCB (R118). -/
def execIncb (s : State) : Host.Outcome State Fault Refusal :=
  .next ({ s with b := s.b + 1#8 }.setNZ8 (s.b + 1#8))

/-- DECA (R119). -/
def execDeca (s : State) : Host.Outcome State Fault Refusal :=
  .next ({ s with a := s.a - 1#8 }.setNZ8 (s.a - 1#8))

/-- DECB (R120). -/
def execDecb (s : State) : Host.Outcome State Fault Refusal :=
  .next ({ s with b := s.b - 1#8 }.setNZ8 (s.b - 1#8))

/-- The unsigned 16-bit product of two bytes (R121). -/
def product (a b : Byte) : Word := a.setWidth 16 * b.setWidth 16

/-- MUL (R121). -/
def execMul (s : State) : Host.Outcome State Fault Refusal :=
  .next ((s.setD (product s.a s.b)).setNZ16 (product s.a s.b))

end Sys2Proof.Machine
end

