-- ==== Sys2Proof/Machine/Control.lean ====
section
/-! DEFINITION. Control transfer (43_control_transfer.md R140, R141). -/

namespace Sys2Proof.Machine

/-- BRA: relative to the address after the operand byte, where PC already is (R140). -/
def execBra (rel8 : Byte) (s : State) : Host.Outcome State Fault Refusal :=
  .next { s with pc := s.relativeTarget rel8 }

/-- RTS (R141). -/
def execRts (s : State) : Host.Outcome State Fault Refusal :=
  .next { s.popWord.2 with pc := s.popWord.1 }

end Sys2Proof.Machine
end

