-- ==== Sys2Proof/Machine/LoadStore.lean ====
section
/-! DEFINITION. Loads, direct-page stores and load effective address (41_alu_flags.md R105, R106;
42_addressing_store_lea.md R134 to R136). -/

namespace Sys2Proof.Machine

/-- LDA (R105). -/
def execLda (imm8 : Byte) (s : State) : Host.Outcome State Fault Refusal :=
  .next ({ s with a := imm8 }.setNZ8 imm8)

/-- LDB (R106). -/
def execLdb (imm8 : Byte) (s : State) : Host.Outcome State Fault Refusal :=
  .next ({ s with b := imm8 }.setNZ8 imm8)

/-- STA (R134). -/
def execSta (off8 : Byte) (s : State) : Host.Outcome State Fault Refusal :=
  .next ((s.memWrite (s.directAddrOf off8) s.a).setNZ8 s.a)

/-- STB (R135). -/
def execStb (off8 : Byte) (s : State) : Host.Outcome State Fault Refusal :=
  .next ((s.memWrite (s.directAddrOf off8) s.b).setNZ8 s.b)

/-- LEAX (R136). -/
def execLeax (soff8 : Byte) (s : State) : Host.Outcome State Fault Refusal :=
  .next ({ s.recordIndexed soff8 with x := s.indexedAddrOf soff8 }.setNZ16 (s.indexedAddrOf soff8))

end Sys2Proof.Machine
end

