-- ==== Sys2Proof/Machine/Logic.lean ====
section
/-! DEFINITION. Bitwise and, or, exclusive-or of an accumulator with an immediate (41_alu_flags.md R111 to R116). -/

namespace Sys2Proof.Machine

/-- ANDA (R111). -/
def execAnda (imm8 : Byte) (s : State) : Host.Outcome State Fault Refusal :=
  .next ({ s with a := s.a &&& imm8 }.setNZ8 (s.a &&& imm8))

/-- ANDB (R112). -/
def execAndb (imm8 : Byte) (s : State) : Host.Outcome State Fault Refusal :=
  .next ({ s with b := s.b &&& imm8 }.setNZ8 (s.b &&& imm8))

/-- ORA (R113). -/
def execOra (imm8 : Byte) (s : State) : Host.Outcome State Fault Refusal :=
  .next ({ s with a := s.a ||| imm8 }.setNZ8 (s.a ||| imm8))

/-- ORB (R114). -/
def execOrb (imm8 : Byte) (s : State) : Host.Outcome State Fault Refusal :=
  .next ({ s with b := s.b ||| imm8 }.setNZ8 (s.b ||| imm8))

/-- EORA (R115). -/
def execEora (imm8 : Byte) (s : State) : Host.Outcome State Fault Refusal :=
  .next ({ s with a := s.a ^^^ imm8 }.setNZ8 (s.a ^^^ imm8))

/-- EORB (R116). -/
def execEorb (imm8 : Byte) (s : State) : Host.Outcome State Fault Refusal :=
  .next ({ s with b := s.b ^^^ imm8 }.setNZ8 (s.b ^^^ imm8))

end Sys2Proof.Machine
end

