-- ==== Sys2Proof/Machine/StackMove.lean ====
section
/-! DEFINITION. Multi-register push and pull, register exchange and transfer (44_stack_regmove.md R157, R158, R161,
R162). -/

namespace Sys2Proof.Machine

/-- PSHS: a pushed PC is the address after the post-byte, where PC already is (R157). -/
def execPshs (mask : Byte) (s : State) : Host.Outcome State Fault Refusal := .next (s.pushMultiple mask)

/-- PULS (R158). -/
def execPuls (mask : Byte) (s : State) : Host.Outcome State Fault Refusal := .next (s.pullMultiple mask)

/-- EXG: both registers are read, then `r1` is written, then `r2` (R161). -/
def execExg (r1 r2 : RegCode) (s : State) : Host.Outcome State Fault Refusal :=
  .next ((s.writeReg r1 (s.readReg r2)).writeReg r2 (s.readReg r1))

/-- TFR: `r1` is the source, `r2` the destination (R162). -/
def execTfr (r1 r2 : RegCode) (s : State) : Host.Outcome State Fault Refusal :=
  .next (s.writeReg r2 (s.readReg r1))

end Sys2Proof.Machine
end

