-- ==== Sys2Proof/Machine/System.lean ====
section
/-! DEFINITION. System instructions (45_system.md R170 to R173). -/

namespace Sys2Proof.Machine

/-- NOP (R170). -/
def execNop (s : State) : Host.Outcome State Fault Refusal := .next s

/-- SYNC: halts the core until `reset()` (R171). -/
def execSync (s : State) : Host.Outcome State Fault Refusal := .next { s with runState := .halted }

/-- RTI (R172). -/
def execRti (s : State) : Host.Outcome State Fault Refusal := .next s.returnFromInterrupt

/-- WAI, present only with WAIT_OPCODE; it has no row in the opcode table, so the sequencer enters it (R173, log 5). -/
def execWai (s : State) : Host.Outcome State Fault Refusal :=
  .next { s with runState := .waitingForInterrupt }

end Sys2Proof.Machine
end

