-- ==== Sys2Proof/Machine/Dispatch.lean ====
section
/-! DEFINITION. One arm per instruction (R89). -/

namespace Sys2Proof.Machine

def exec (i : Instr) (s : State) : Host.Outcome State Fault Refusal :=
  match i with
  | .nop => Sys2Proof.Machine.execNop s
  | .sync => Sys2Proof.Machine.execSync s
  | .exg r1 r2 => Sys2Proof.Machine.execExg r1 r2 s
  | .tfr r1 r2 => Sys2Proof.Machine.execTfr r1 r2 s
  | .bra rel8 => Sys2Proof.Machine.execBra rel8 s
  | .leax soff8 => Sys2Proof.Machine.execLeax soff8 s
  | .pshs mask => Sys2Proof.Machine.execPshs mask s
  | .puls mask => Sys2Proof.Machine.execPuls mask s
  | .rts => Sys2Proof.Machine.execRts s
  | .rti => Sys2Proof.Machine.execRti s
  | .mul => Sys2Proof.Machine.execMul s
  | .deca => Sys2Proof.Machine.execDeca s
  | .inca => Sys2Proof.Machine.execInca s
  | .decb => Sys2Proof.Machine.execDecb s
  | .incb => Sys2Proof.Machine.execIncb s
  | .suba imm8 => Sys2Proof.Machine.execSuba imm8 s
  | .anda imm8 => Sys2Proof.Machine.execAnda imm8 s
  | .lda imm8 => Sys2Proof.Machine.execLda imm8 s
  | .eora imm8 => Sys2Proof.Machine.execEora imm8 s
  | .ora imm8 => Sys2Proof.Machine.execOra imm8 s
  | .adda imm8 => Sys2Proof.Machine.execAdda imm8 s
  | .sta off8 => Sys2Proof.Machine.execSta off8 s
  | .subb imm8 => Sys2Proof.Machine.execSubb imm8 s
  | .andb imm8 => Sys2Proof.Machine.execAndb imm8 s
  | .ldb imm8 => Sys2Proof.Machine.execLdb imm8 s
  | .eorb imm8 => Sys2Proof.Machine.execEorb imm8 s
  | .orb imm8 => Sys2Proof.Machine.execOrb imm8 s
  | .addb imm8 => Sys2Proof.Machine.execAddb imm8 s
  | .stb off8 => Sys2Proof.Machine.execStb off8 s

end Sys2Proof.Machine
end

