-- ==== Sys2Proof/Machine/Sequencer.lean ====
section
/-! DEFINITION. The step sequencer (40_fetch_step.md R82 to R92), which Step.lean names `step`. -/

namespace Sys2Proof.Machine

/-- The opcode part of an instruction: one byte, or an escape prefix and one more (R87, R61). -/
def State.fetchKey (s : State) : Key × State :=
  let op := s.fetchByte
  if isEscape op.1 then
    let op2 := op.2.fetchByte
    (escapedKey op.1 op2.1, op2.2)
  else (byteKey op.1, op.2)

/-- The end of an executed effect: it is counted (R89). -/
def counted (o : Host.Outcome State Fault Refusal) : Host.Outcome State Fault Refusal :=
  match o with
  | .next t => .next t.countInstruction
  | .fault r => .fault r
  | .refused r => .refused r

/-- What a key fetched from `addr` does: the effect of its table row, whose operand byte is fetched first (log 11); the
effect of WAI when the key is WAIT_OPCODE (R71); the unknown-opcode fault otherwise (R88). -/
def State.runKey (s : State) (key : Key) (addr : Word) : Host.Outcome State Fault Refusal :=
  match lookupKey key with
  | some (.inherent i) => counted (exec i s)
  | some (.withByte make) => counted (exec (make s.fetchByte.1) s.fetchByte.2)
  | none =>
    if s.params.waitOpcode = some key then counted (execWai s)
    else .next (s.raiseUnknownOpcode key addr)

/-- A step that reaches the opcode fetch (R87 to R90). -/
def State.runInstruction (s : State) : Host.Outcome State Fault Refusal :=
  let f := s.clearIntrospection.fetchKey
  f.2.runKey f.1 s.pc

/-- The cases of a step, in the order of R82. -/
def sequencer (s : State) : Host.Outcome State Fault Refusal :=
  if s.runState = .halted then .next s
  else if s.runState = .waitingForInterrupt ∧ s.irqPending = false then .next s
  else if s.irqPending = true then .next s.serviceInterrupt
  else if s.breakpoints.contains s.pc then .next s
  else s.runInstruction

/-- A state ready to fetch an instruction at PC: Running, no request pending, no breakpoint there (log 13). -/
def State.readyToFetch (s : State) : State :=
  { s with runState := .running, irqPending := false, breakpoints := s.breakpoints.filter (· != s.pc) }

/-- Bytes stored from an address upward, wrapping (R56). -/
def State.storeBytes (s : State) (base : Word) : List Byte → State
  | [] => s
  | b :: rest => (s.rawWrite base b).storeBytes (base + 1#16) rest

end Sys2Proof.Machine
end

