-- ==== Sys2Proof/Machine/Step.lean ====
section
/-! DEFINITION. One step of the machine, and the placing of one instruction where it is fetched next. -/

namespace Sys2Proof.Machine

/-- `step()` (R82). -/
def step (s : State) : Host.Outcome State Fault Refusal := sequencer s

/-- The instruction of a table word placed at PC, so that the very next step fetches and runs it (log 13). -/
def State.withFetchWord (s : State) (nbits w : Nat) : State :=
  s.readyToFetch.storeBytes s.pc (tableBytes nbits w)

end Sys2Proof.Machine
end

