-- ==== Sys2Proof/Machine/Transactions.lean ====
section
/-! DEFINITION. What the world outside the core can do to it, each transaction atomic and between steps (00_scope.md R6
and section 6.8; 10_state.md R29; 20_memory.md R56, R57; 60_exceptions.md R182, R197, R200; 70_reset_and_hazards.md
R220, R222). -/

namespace Sys2Proof.Machine

/-- `reset()`: the reset values, except that the device is left as it is (R220, R222), as are the parameters (log 1)
and the count of free values drawn (log 3). -/
def State.hostReset (s : State) : State :=
  { State.powerOn s.params with
    mem := Memory.clear s.mem, kbdBuffer := s.kbdBuffer, kbdPending := s.kbdPending, freeCount := s.freeCount }

/-- Insert an address into a strictly rising list, ignoring a duplicate (R21, R200). -/
def insertAddr (a : Word) : List Word → List Word
  | [] => [a]
  | b :: rest => if a < b then a :: b :: rest else if a = b then b :: rest else b :: insertAddr a rest

/-- `addBreakpoint(a)`, `a` masked to 16 bits (R200). -/
def State.addBreakpoint (s : State) (a : Int) : State :=
  { s with breakpoints := insertAddr (BitVec.ofInt 16 a) s.breakpoints }

/-- `removeBreakpoint(a)`, `a` masked to 16 bits; an absent address changes nothing (R200). -/
def State.removeBreakpoint (s : State) (a : Int) : State :=
  { s with breakpoints := s.breakpoints.filter (· != BitVec.ofInt 16 a) }

/-- The host reads a cell of the raw array (R41, R56). -/
def State.hostReadByte (s : State) (addr : Int) : Byte := s.rawRead (BitVec.ofInt 16 addr)

/-- The host writes a cell of the raw array, address and value masked (R41, R56). -/
def State.hostWriteByte (s : State) (addr v : Int) : State :=
  s.rawWrite (BitVec.ofInt 16 addr) (BitVec.ofInt 8 v)

/-- Program loading: bytes written from `base` upward, wrapping at 65536; no register changes (R56). -/
def State.loadProgram (s : State) (base : Int) (bytes : List Byte) : State :=
  s.storeBytes (BitVec.ofInt 16 base) bytes

/-- The host reads a register, which no rule of the core reacts to (R29). -/
def State.hostReadReg (s : State) (r : RegCode) : Word := s.readReg r

/-- The host writes a register, the value masked to its width (R11, R29). A code that names no register writes
nothing (log 15). -/
def State.hostWriteReg (s : State) (r : RegCode) (v : Int) : State := s.writeReg r (BitVec.ofInt 16 v)

/-- What the device leaves in the raw cells at its two addresses when a byte arrives: free values (R197, U6; log 3). -/
def State.publish (s : State) (ports : KbdPorts) : State :=
  { (s.rawWrite ports.dataAddr (Config.kbdPublishedData s.freeCount)).rawWrite
      ports.statusAddr (Config.kbdPublishedStatus s.freeCount) with freeCount := s.freeCount + 1 }

/-- Input arrival of the byte `k` (R197). With no device attached there is nothing for it to reach (R194, log 4). -/
def State.inputArrival (s : State) (k : Byte) : State :=
  match s.params.kbd with
  | some ports => ({ s with kbdBuffer := k, kbdPending := true }.publish ports).triggerIRQ
  | none => s

/-- The transactions the block offers (00_scope.md section 6.8). -/
inductive Transaction where
  | step
  | reset
  | triggerIRQ
  | addBreakpoint (a : Int)
  | removeBreakpoint (a : Int)
  | writeByte (addr v : Int)
  | loadProgram (base : Int) (bytes : List Byte)
  | writeReg (r : RegCode) (v : Int)
  | inputArrival (k : Byte)
deriving DecidableEq, Repr

/-- One transaction (R6). -/
def transact (t : Transaction) (s : State) : Host.Outcome State Fault Refusal :=
  match t with
  | .step => step s
  | .reset => .next s.hostReset
  | .triggerIRQ => .next s.triggerIRQ
  | .addBreakpoint a => .next (s.addBreakpoint a)
  | .removeBreakpoint a => .next (s.removeBreakpoint a)
  | .writeByte addr v => .next (s.hostWriteByte addr v)
  | .loadProgram base bytes => .next (s.loadProgram base bytes)
  | .writeReg r v => .next (s.hostWriteReg r v)
  | .inputArrival k => .next (s.inputArrival k)

/-- Transactions one after another, stopping at the first fault or refusal. -/
def transactAll : List Transaction → State → Host.Outcome State Fault Refusal
  | [], s => .next s
  | t :: rest, s =>
    match transact t s with
    | .next s' => transactAll rest s'
    | .fault r => .fault r
    | .refused r => .refused r

end Sys2Proof.Machine
end

