-- ==== Sys2Proof/Safety.lean ====
section
/-! DEFINITION. What claims call a legal parameter choice, a canonical state and the core's own invariant. -/

namespace Sys2Proof.Machine

/-- The two ports are adjacent: they differ by 1 modulo 65536 (R4, R194). -/
def portsAdjacent (p : KbdPorts) : Bool :=
  p.statusAddr == p.dataAddr + 1#16 || p.dataAddr == p.statusAddr + 1#16

/-- The parameters a machine may have (R4, R71, R194). -/
def paramsLegal (p : Params) : Bool :=
  (match p.kbd with | some ports => portsAdjacent ports | none => true)
    && (match p.waitOpcode with | some k => waitKeyLegal k | none => true)

/-- Memory and the breakpoint set are in their one canonical form, so that equal contents are equal data (R18, R21). -/
abbrev State.canonical (s : State) : Prop :=
  Memory.wf s.mem ∧ s.breakpoints.Pairwise (· < ·)

/-- The fault record is written only with the halt it reports, by a key that is neither mapped nor the wait opcode
(R181, R188). -/
def State.faultRecordSound (s : State) : Prop :=
  ∀ r, s.faultRecord = some r →
    s.runState = .halted ∧ lookupKey r.key = none ∧ s.params.waitOpcode ≠ some r.key

/-- The core waits only where a wait opcode exists (R71, R84). -/
def State.waitingSound (s : State) : Prop :=
  s.runState = .waitingForInterrupt → s.params.waitOpcode ≠ none

/-- The core's invariant: canonical data, a sound fault record, a sound waiting state. -/
structure State.Inv (s : State) : Prop where
  canonical : s.canonical
  faultRecordSound : s.faultRecordSound
  waitingSound : s.waitingSound

/-! ### Flags, as statements say them -/

/-- `new` is `old` with exactly the listed flags written (R14, R104). -/
def ccWrites (old new : Byte) (writes : List (Flag × Bool)) : Prop :=
  ∀ bit, ccGet new bit = (writes.lookup bit).getD (ccGet old bit)

/-- N and Z of an 8-bit result, as arithmetic (R100). -/
def nzOf8 (r : Byte) : List (Flag × Bool) :=
  [(.n, decide (128 ≤ r.toNat)), (.z, decide (r.toNat = 0))]

/-- N and Z of a 16-bit result, as arithmetic (R101). -/
def nzOf16 (r : Word) : List (Flag × Bool) :=
  [(.n, decide (32768 ≤ r.toNat)), (.z, decide (r.toNat = 0))]

/-- An integer outside the range of a signed byte. -/
def signedOverflow (v : Int) : Bool := decide (v < -128 ∨ 127 < v)

/-- C, V, H of `p + q`, as arithmetic: the unsigned carry, the signed overflow, the carry out of bit 3 (R102). -/
def carriesOfAdd (p q : Byte) : List (Flag × Bool) :=
  [(.c, decide (255 < p.toNat + q.toNat)), (.v, signedOverflow (p.toInt + q.toInt)),
   (.h, decide (15 < p.toNat % 16 + q.toNat % 16))]

/-- C and V of `p - q`, as arithmetic: the borrow and the signed overflow (R103). -/
def carriesOfSub (p q : Byte) : List (Flag × Bool) :=
  [(.c, decide (p.toNat < q.toNat)), (.v, signedOverflow (p.toInt - q.toInt))]

/-! ### What the core's accessor gives on a run of addresses -/

/-- `base + k`, wrapping. -/
def offsetAddr (base : Word) (k : Nat) : Word := base + BitVec.ofNat 16 k

/-- No byte of the `n` from `base` upward is a port of an attached device (R42, R156). -/
def State.noPortIn (s : State) (base : Word) (n : Nat) : Prop :=
  ∀ ports, s.params.kbd = some ports → ∀ k, k < n →
    offsetAddr base k ≠ ports.dataAddr ∧ offsetAddr base k ≠ ports.statusAddr

/-- `kbd_pending` after the accessor has read the `n` bytes from `base` upward: a read of the data port clears it
(R48, R195). -/
def State.pendingAfter (s : State) (base : Word) (n : Nat) : Bool :=
  match s.params.kbd with
  | some ports => s.kbdPending && (List.range n).all fun j => offsetAddr base j != ports.dataAddr
  | none => s.kbdPending

/-- The byte the accessor gives for the `k`-th address from `base`, the ones below it having been read first (R42,
R195, R196). -/
def State.accessorByte (s : State) (base : Word) (k : Nat) : Byte :=
  match s.params.kbd with
  | some ports =>
    if offsetAddr base k = ports.dataAddr then s.kbdBuffer
    else if offsetAddr base k = ports.statusAddr then (if s.pendingAfter base k then 1#8 else 0#8)
    else s.rawRead (offsetAddr base k)
  | none => s.rawRead (offsetAddr base k)

/-! ### The frame of a multi-register push (R154, R155) -/

/-- The bytes of the registers a mask selects, from the lowest address upward: CC, A, B, DP, then X, Y, U, PC with the
high byte first (R155). -/
def State.frameBytes (s : State) (mask : Byte) : List Byte :=
  (if mask.getLsbD 0 then [s.cc] else []) ++ (if mask.getLsbD 1 then [s.a] else [])
    ++ (if mask.getLsbD 2 then [s.b] else []) ++ (if mask.getLsbD 3 then [s.dp] else [])
    ++ (if mask.getLsbD 4 then [highByte s.x, lowByte s.x] else [])
    ++ (if mask.getLsbD 5 then [highByte s.y, lowByte s.y] else [])
    ++ (if mask.getLsbD 6 then [highByte s.u, lowByte s.u] else [])
    ++ (if mask.getLsbD 7 then [highByte s.pc, lowByte s.pc] else [])

/-! ### Registers by code, as statements say them (R12, R159, R160) -/

/-- A value reduced to a register's width; an unmapped code keeps nothing (R11, R160). -/
def regTruncate (r : RegCode) (v : Word) : Word :=
  match r with
  | .a | .b | .cc | .dp => BitVec.ofNat 16 (v.toNat % 256)
  | .d | .x | .y | .u | .sp | .pc => v
  | .unmapped _ => 0#16

/-- Two codes that name common storage: the same register, or D with A or B (R12). -/
def regOverlaps (r q : RegCode) : Bool :=
  r == q || (match r, q with
    | .d, .a | .d, .b | .a, .d | .b, .d => true
    | _, _ => false)

/-- `t` differs from `s` in the register file only. -/
def sameButRegisters (s t : State) : Prop :=
  t = { s with a := t.a, b := t.b, x := t.x, y := t.y, u := t.u, sp := t.sp, pc := t.pc, dp := t.dp, cc := t.cc }

/-! ### A step that executes an instruction -/

/-- The step reaches the opcode fetch: Running, no request pending, no breakpoint at PC (R82). -/
structure State.fetches (s : State) : Prop where
  running : s.runState = .running
  noRequest : s.irqPending = false
  noBreakpoint : s.pc ∉ s.breakpoints

/-- The two bytes at PC, which hold the whole of any instruction (R62). -/
def State.bytesAtPc (s : State) : List Byte := [s.rawRead s.pc, s.rawRead (s.pc + 1#16)]

/-- The state an instruction of `n` bytes runs in: PC past its bytes, the introspection fields cleared (R89, R90). -/
def State.fetched (s : State) (n : Nat) : State :=
  { s with pc := offsetAddr s.pc n, lastEa := 0#16, lastPostbyte := 0#8 }

end Sys2Proof.Machine
end

