-- ==== Sys2Proof/Certificates/Slice0/Obligations.lean ====
section
/-! DEFINITION. The statements about this machine, for the provers. Each docstring names the rule of spec/ it formalises;
where a clause is the spec's own decision (92_eei_decisions.md) or the model's choice, it says so. -/

open Sys2Proof Sys2Proof.Machine

/-! ### Encoding (30_encoding.md) -/

/-- Decoding the bytes of any well-formed instruction gives it back, with every operand, whatever follows. -/
def Obligations.DecodeOfEncodeIsTheInstruction : Prop :=
  ∀ (i : Instr) (rest : List Byte), i.wf = true → decode (encode i ++ rest) = .ok (i, rest)

/-- Whatever decodes is a well-formed instruction whose encoding is exactly the bytes read. -/
def Obligations.EncodeOfDecodeIsTheBytes : Prop :=
  ∀ (bytes rest : List Byte) (i : Instr),
    decode bytes = .ok (i, rest) → i.wf = true ∧ encode i ++ rest = bytes

/-- Words written out from the table of R64 decode to the instructions they stand for. -/
def Obligations.WrittenOutWordsDecode : Prop :=
  decode [0x12#8] = .ok (.nop, []) ∧ decode [0x13#8] = .ok (.sync, []) ∧
  decode [0x86#8, 0x05#8] = .ok (.lda 0x05#8, []) ∧ decode [0x8B#8, 0x03#8] = .ok (.adda 0x03#8, []) ∧
  decode [0x4C#8] = .ok (.inca, []) ∧ decode [0x3D#8] = .ok (.mul, []) ∧
  decode [0xC4#8, 0x80#8] = .ok (.andb 0x80#8, []) ∧ decode [0x97#8, 0x10#8] = .ok (.sta 0x10#8, []) ∧
  decode [0x30#8, 0xFB#8] = .ok (.leax 0xFB#8, []) ∧ decode [0x20#8, 0xFE#8] = .ok (.bra 0xFE#8, []) ∧
  decode [0x39#8] = .ok (.rts, []) ∧ decode [0x34#8, 0x06#8] = .ok (.pshs 0x06#8, []) ∧
  decode [0x1E#8, 0x89#8] = .ok (.exg .a .b, []) ∧ decode [0x1F#8, 0x68#8] = .ok (.tfr (.unmapped 6#4) .a, []) ∧
  decode [0x3B#8] = .ok (.rti, []) ∧ decode [0xFF#8] = .error (.unknownOpcode 0x00FF#16)

/-- R61: how the key is formed from the bytes at PC, and how far PC moves. -/
def Obligations.KeyIsOpcodeOrPrefixedByte : Prop :=
  ∀ s : State,
    let op := s.rawRead s.pc
    let op2 := s.rawRead (s.pc + 1#16)
    ((op = 0x10#8 ∨ op = 0x11#8) →
      s.fetchKey.1.toNat = op.toNat * 256 + op2.toNat ∧
      s.fetchKey.2 = { s with pc := s.pc + 2#16 }) ∧
    (¬ (op = 0x10#8 ∨ op = 0x11#8) →
      s.fetchKey.1.toNat = op.toNat ∧ s.fetchKey.2 = { s with pc := s.pc + 1#16 }) ∧
    s.fetchKey.1.toNat ≠ 0x10 ∧ s.fetchKey.1.toNat ≠ 0x11

/-- R64 to R66: exactly 29 keys are mapped, none of them prefixed (the membership is the spec's decisions D1, D26). -/
def Obligations.ExactlyTheTwentyNineKeysAreMapped : Prop :=
  ∀ k : Key, (∃ e, lookupKey k = some e) ↔
    k.toNat ∈ [0x12, 0x13, 0x1E, 0x1F, 0x20, 0x30, 0x34, 0x35, 0x39, 0x3B, 0x3D, 0x4A, 0x4C, 0x5A, 0x5C,
      0x80, 0x84, 0x86, 0x88, 0x8A, 0x8B, 0x97, 0xC0, 0xC4, 0xC6, 0xC8, 0xCA, 0xCB, 0xD7]

/-! ### Memory (20_memory.md) -/

/-- R41: a host write is read back modulo 256 at every address equal to it modulo 65536, and nowhere else. -/
def Obligations.MemoryReadAfterWrite : Prop :=
  ∀ (s : State) (addr v other : Int), Memory.wf s.mem →
    ((s.hostWriteByte addr v).hostReadByte addr).toNat = v % 256 ∧
    (other % 65536 = addr % 65536 →
      (s.hostWriteByte addr v).hostReadByte other = (s.hostWriteByte addr v).hostReadByte addr) ∧
    (other % 65536 ≠ addr % 65536 → (s.hostWriteByte addr v).hostReadByte other = s.hostReadByte other) ∧
    s.hostWriteByte addr v = { s with mem := (s.hostWriteByte addr v).mem }

/-- R45: a word write is two byte writes, big-endian, at two distinct cells, wrapping; nothing else changes. -/
def Obligations.WordWriteIsTwoByteWrites : Prop :=
  ∀ (s : State) (addr v : Word), Memory.wf s.mem →
    addr ≠ addr + 1#16 ∧
    ((s.memWriteWord addr v).rawRead addr).toNat = v.toNat / 256 ∧
    ((s.memWriteWord addr v).rawRead (addr + 1#16)).toNat = v.toNat % 256 ∧
    (∀ other, other ≠ addr → other ≠ addr + 1#16 → (s.memWriteWord addr v).rawRead other = s.rawRead other) ∧
    s.memWriteWord addr v = { s with mem := (s.memWriteWord addr v).mem }

/-- R42, R43, R195, R196: reads of an attached device's ports are answered by the device, writes always reach the array
and only the array. -/
def Obligations.DeviceInterceptsReadsOnly : Prop :=
  ∀ (s : State) (addr : Word) (v : Byte),
    s.memWrite addr v = s.rawWrite addr v ∧
    s.memWrite addr v = { s with mem := (s.memWrite addr v).mem } ∧
    (Memory.wf s.mem → (s.memWrite addr v).rawRead addr = v) ∧
    (s.params.kbd = none → s.memRead addr = (s.rawRead addr, s)) ∧
    ∀ ports, s.params.kbd = some ports →
      s.memRead ports.dataAddr = (s.kbdBuffer, { s with kbdPending := false }) ∧
      (ports.statusAddr ≠ ports.dataAddr →
        s.memRead ports.statusAddr = (if s.kbdPending then 1#8 else 0#8, s)) ∧
      (addr ≠ ports.dataAddr → addr ≠ ports.statusAddr → s.memRead addr = (s.rawRead addr, s)) ∧
      ((s.memWrite ports.dataAddr v).memRead ports.dataAddr).1 = s.kbdBuffer

/-- R56: the host reads and writes raw cells, and a loaded program lies byte by byte from its base upward, wrapping; no
other cell and no register changes. -/
def Obligations.LoadedProgramLiesInMemory : Prop :=
  ∀ (s : State) (base addr v : Int) (bytes : List Byte), Memory.wf s.mem → bytes.length ≤ 65536 →
    s.hostReadByte addr = s.rawRead (BitVec.ofInt 16 addr) ∧
    s.hostWriteByte addr v = s.rawWrite (BitVec.ofInt 16 addr) (BitVec.ofInt 8 v) ∧
    (∀ (k : Nat) (h : k < bytes.length), (s.loadProgram base bytes).hostReadByte (base + k) = bytes[k]) ∧
    (∀ other : Int, (∀ k : Nat, k < bytes.length → other % 65536 ≠ (base + k) % 65536) →
      (s.loadProgram base bytes).hostReadByte other = s.hostReadByte other) ∧
    s.loadProgram base bytes = { s with mem := (s.loadProgram base bytes).mem }

/-! ### Registers and flags (10_state.md, 41_alu_flags.md) -/

/-- R12: D is A and B. -/
def Obligations.DIsTheConcatenationOfAAndB : Prop :=
  ∀ (s : State) (v : Word) (p : Byte),
    s.d.toNat = s.a.toNat * 256 + s.b.toNat ∧
    s.setD v = { s with a := BitVec.ofNat 8 (v.toNat / 256), b := BitVec.ofNat 8 v.toNat } ∧
    (s.setD v).d = v ∧
    ({ s with a := p }.d).toNat = p.toNat * 256 + s.b.toNat ∧
    ({ s with b := p }.d).toNat = s.a.toNat * 256 + p.toNat

/-- R14: a flag is a bit of CC in the order of R13; setting one changes that bit and nothing else. -/
def Obligations.SettingAFlagChangesThatBitOnly : Prop :=
  ∀ (s : State) (bit other : Flag) (v : Bool),
    ((s.setFlag bit v).getFlag other = if other = bit then v else s.getFlag other) ∧
    (s.getFlag bit = decide (s.cc &&& bit.mask ≠ 0#8)) ∧
    (s.getFlag bit = s.cc.getLsbD (match bit with
      | .e => 7 | .f => 6 | .h => 5 | .i => 4 | .n => 3 | .z => 2 | .v => 1 | .c => 0)) ∧
    s.setFlag bit v = { s with cc := if v then s.cc ||| bit.mask else s.cc &&& ~~~bit.mask }

/-- R100 and R101: N is the high bit of the masked result, Z its being 0, every other flag kept. -/
def Obligations.SetNZWritesNAndZOnly : Prop :=
  (∀ (s : State) (r : Int), ∃ cc', s.setNZ8 (BitVec.ofInt 8 r) = { s with cc := cc' } ∧
    ccWrites s.cc cc' [(.n, decide (128 ≤ r % 256)), (.z, decide (r % 256 = 0))]) ∧
  (∀ (s : State) (r : Int), ∃ cc', s.setNZ16 (BitVec.ofInt 16 r) = { s with cc := cc' } ∧
    ccWrites s.cc cc' [(.n, decide (32768 ≤ r % 65536)), (.z, decide (r % 65536 = 0))])

/-- R102: C is the unsigned carry, V the signed overflow, H the carry out of bit 3; every other flag kept. -/
def Obligations.AddFlagsAreCarryOverflowHalfCarry : Prop :=
  ∀ (s : State) (p q : Byte), ∃ cc', s.addFlags8 p q (sum9 p q) = { s with cc := cc' } ∧
    (sum9 p q).toNat = p.toNat + q.toNat ∧ ccWrites s.cc cc' (carriesOfAdd p q)

/-- RegRead and RegWrite (R159, R160): what every code reads after a write to every code. That a write to an unmapped
code is dropped is the spec's decision D14. -/
def Obligations.RegisterCodesReadBackWhatWasWritten : Prop :=
  ∀ (s : State) (w q : RegCode) (v : Word),
    (s.writeReg w v).readReg w = regTruncate w v ∧
    (regOverlaps w q = false → (s.writeReg w v).readReg q = s.readReg q) ∧
    ((s.writeReg .d v).readReg .a).toNat = v.toNat / 256 ∧
    ((s.writeReg .d v).readReg .b).toNat = v.toNat % 256 ∧
    ((s.writeReg .a v).readReg .d).toNat = v.toNat % 256 * 256 + s.b.toNat ∧
    ((s.writeReg .b v).readReg .d).toNat = s.a.toNat * 256 + v.toNat % 256 ∧
    (∀ c, s.readReg (.unmapped c) = 0#16 ∧ s.writeReg (.unmapped c) v = s) ∧
    sameButRegisters s (s.writeReg w v)

/-! ### Accumulator instructions (41_alu_flags.md) -/

/-- LDA and LDB: result, flags and frame (R105, R106; that V and C are kept is the spec's decision D6). -/
def Obligations.LoadImmediateResult : Prop :=
  ∀ (s : State) (imm : Byte),
    (∃ cc', exec (.lda imm) s = .next { s with a := imm, cc := cc' } ∧ ccWrites s.cc cc' (nzOf8 imm)) ∧
    (∃ cc', exec (.ldb imm) s = .next { s with b := imm, cc := cc' } ∧ ccWrites s.cc cc' (nzOf8 imm))

/-- ADDA and ADDB: the sum modulo 256, H, N, Z, V, C as arithmetic, nothing else changed (R107, R108). -/
def Obligations.AddImmediateResult : Prop :=
  ∀ (s : State) (imm : Byte),
    (∃ r cc', exec (.adda imm) s = .next { s with a := r, cc := cc' } ∧
      r.toNat = (s.a.toNat + imm.toNat) % 256 ∧ ccWrites s.cc cc' (carriesOfAdd s.a imm ++ nzOf8 r)) ∧
    (∃ r cc', exec (.addb imm) s = .next { s with b := r, cc := cc' } ∧
      r.toNat = (s.b.toNat + imm.toNat) % 256 ∧ ccWrites s.cc cc' (carriesOfAdd s.b imm ++ nzOf8 r))

/-- SUBA and SUBB: the difference modulo 256, N, Z, V, C as arithmetic, nothing else changed, H included (R109, R110; H is
the spec's decision D10). -/
def Obligations.SubtractImmediateResult : Prop :=
  ∀ (s : State) (imm : Byte),
    (∃ r cc', exec (.suba imm) s = .next { s with a := r, cc := cc' } ∧
      (r.toNat : Int) = ((s.a.toNat : Int) - imm.toNat) % 256 ∧
      ccWrites s.cc cc' (carriesOfSub s.a imm ++ nzOf8 r)) ∧
    (∃ r cc', exec (.subb imm) s = .next { s with b := r, cc := cc' } ∧
      (r.toNat : Int) = ((s.b.toNat : Int) - imm.toNat) % 256 ∧
      ccWrites s.cc cc' (carriesOfSub s.b imm ++ nzOf8 r))

/-- ANDA, ANDB, ORA, ORB, EORA, EORB: result, flags and frame (R111 to R116; the flags are the spec's decision D6). -/
def Obligations.LogicImmediateResult : Prop :=
  ∀ (s : State) (imm : Byte),
    (∃ cc', exec (.anda imm) s = .next { s with a := s.a &&& imm, cc := cc' } ∧
      ccWrites s.cc cc' (nzOf8 (s.a &&& imm))) ∧
    (∃ cc', exec (.andb imm) s = .next { s with b := s.b &&& imm, cc := cc' } ∧
      ccWrites s.cc cc' (nzOf8 (s.b &&& imm))) ∧
    (∃ cc', exec (.ora imm) s = .next { s with a := s.a ||| imm, cc := cc' } ∧
      ccWrites s.cc cc' (nzOf8 (s.a ||| imm))) ∧
    (∃ cc', exec (.orb imm) s = .next { s with b := s.b ||| imm, cc := cc' } ∧
      ccWrites s.cc cc' (nzOf8 (s.b ||| imm))) ∧
    (∃ cc', exec (.eora imm) s = .next { s with a := s.a ^^^ imm, cc := cc' } ∧
      ccWrites s.cc cc' (nzOf8 (s.a ^^^ imm))) ∧
    (∃ cc', exec (.eorb imm) s = .next { s with b := s.b ^^^ imm, cc := cc' } ∧
      ccWrites s.cc cc' (nzOf8 (s.b ^^^ imm)))

/-- INCA, INCB, DECA, DECB: result modulo 256, N and Z, nothing else changed (R117 to R120; that V, C and H are kept is the
spec's decision D7). -/
def Obligations.IncrementDecrementResult : Prop :=
  ∀ s : State,
    (∃ r cc', exec .inca s = .next { s with a := r, cc := cc' } ∧
      r.toNat = (s.a.toNat + 1) % 256 ∧ ccWrites s.cc cc' (nzOf8 r)) ∧
    (∃ r cc', exec .incb s = .next { s with b := r, cc := cc' } ∧
      r.toNat = (s.b.toNat + 1) % 256 ∧ ccWrites s.cc cc' (nzOf8 r)) ∧
    (∃ r cc', exec .deca s = .next { s with a := r, cc := cc' } ∧
      (r.toNat : Int) = ((s.a.toNat : Int) - 1) % 256 ∧ ccWrites s.cc cc' (nzOf8 r)) ∧
    (∃ r cc', exec .decb s = .next { s with b := r, cc := cc' } ∧
      (r.toNat : Int) = ((s.b.toNat : Int) - 1) % 256 ∧ ccWrites s.cc cc' (nzOf8 r))

/-- MUL: the unsigned product in D, N and Z of all 16 bits, nothing else changed (R121; unsignedness and flags are the
spec's decision D8). -/
def Obligations.MultiplyResult : Prop :=
  ∀ s : State, ∃ hi lo cc', exec .mul s = .next { s with a := hi, b := lo, cc := cc' } ∧
    hi.toNat * 256 + lo.toNat = s.a.toNat * s.b.toNat ∧
    ccWrites s.cc cc' [(.n, decide (32768 ≤ s.a.toNat * s.b.toNat)), (.z, decide (s.a.toNat * s.b.toNat = 0))]

/-! ### Store, load effective address, control transfer (42, 43) -/

/-- STA and STB: the byte stored at `{DP, off8}`, every other cell and everything but N and Z unchanged (R130, R134, R135;
that a store sets N and Z is the spec's decision D6). -/
def Obligations.DirectStoreResult : Prop :=
  ∀ (s : State) (off : Byte), Memory.wf s.mem →
    (s.directAddrOf off).toNat = s.dp.toNat * 256 + off.toNat ∧
    (∃ m' cc', exec (.sta off) s = .next { s with mem := m', cc := cc' } ∧
      { s with mem := m' }.rawRead (s.directAddrOf off) = s.a ∧
      (∀ other, other ≠ s.directAddrOf off → { s with mem := m' }.rawRead other = s.rawRead other) ∧
      ccWrites s.cc cc' (nzOf8 s.a)) ∧
    (∃ m' cc', exec (.stb off) s = .next { s with mem := m', cc := cc' } ∧
      { s with mem := m' }.rawRead (s.directAddrOf off) = s.b ∧
      (∀ other, other ≠ s.directAddrOf off → { s with mem := m' }.rawRead other = s.rawRead other) ∧
      ccWrites s.cc cc' (nzOf8 s.b))

/-- LEAX: X plus a signed byte modulo 65536, N and Z of 16 bits, the introspection fields, nothing else changed (R131,
R136; destination, flags and fields are the spec's decisions D9 and D21). -/
def Obligations.LoadEffectiveAddressResult : Prop :=
  ∀ (s : State) (off : Byte), ∃ ea cc',
    exec (.leax off) s = .next { s with x := ea, lastEa := ea, lastPostbyte := off, cc := cc' } ∧
    (ea.toNat : Int) = ((s.x.toNat : Int) + off.toInt) % 65536 ∧ ccWrites s.cc cc' (nzOf16 ea)

/-- BRA, run with PC past its operand byte: PC moves by a signed byte modulo 65536 and nothing else changes (R140; the
operand's form is the spec's decision D11). -/
def Obligations.BranchAlwaysResult : Prop :=
  ∀ (s : State) (rel : Byte), ∃ target,
    exec (.bra rel) s = .next { s with pc := target } ∧
    (target.toNat : Int) = ((s.pc.toNat : Int) + rel.toInt) % 65536

/-- RTS: PC is the word the accessor gives at SP, SP moves up by 2, nothing else changes but what the reads do to an
attached device (R141, R153; the byte order is the spec's decision D12, the accessor D17). -/
def Obligations.ReturnFromSubroutineResult : Prop :=
  ∀ s : State, ∃ target,
    exec .rts s = .next { s with pc := target, sp := s.sp + 2#16, kbdPending := s.pendingAfter s.sp 2 } ∧
    target.toNat = (s.accessorByte s.sp 0).toNat * 256 + (s.accessorByte s.sp 1).toNat

/-! ### Stack and register moves (44_stack_regmove.md) -/

/-- One byte pushed and popped (R150, R151). That pushes and pops go through the core's accessor is the spec's decision
D17. -/
def Obligations.PushAndPopByte : Prop :=
  ∀ (s : State) (v : Byte), Memory.wf s.mem →
    (s.pushByte v).sp = s.sp - 1#16 ∧
    (s.pushByte v).rawRead (s.sp - 1#16) = v ∧
    (∀ other, other ≠ s.sp - 1#16 → (s.pushByte v).rawRead other = s.rawRead other) ∧
    s.pushByte v = { s with sp := (s.pushByte v).sp, mem := (s.pushByte v).mem } ∧
    s.popByte = (s.accessorByte s.sp 0,
      { s with sp := s.sp + 1#16, kbdPending := s.pendingAfter s.sp 1 })

/-- PushWord then PopWord (R152, R153): the word lies big-endian at the new SP and comes back, and SP with it. The byte
order is the spec's decision D12. -/
def Obligations.PushedWordComesBack : Prop :=
  ∀ (s : State) (v : Word), Memory.wf s.mem →
    (s.pushWord v).sp = s.sp - 2#16 ∧
    ((s.pushWord v).rawRead (s.sp - 2#16)).toNat = v.toNat / 256 ∧
    ((s.pushWord v).rawRead (s.sp - 1#16)).toNat = v.toNat % 256 ∧
    (s.noPortIn (s.sp - 2#16) 2 → (s.pushWord v).popWord = (v, { s with mem := (s.pushWord v).mem }))

/-- PSHS: the selected registers lie in the frame below the old SP in the order of R155, no other cell and nothing but
SP changes (R154, R157; the operand and the pushed PC are the spec's decision D13, the byte order of words D12). -/
def Obligations.PushRegistersResult : Prop :=
  ∀ (s : State) (mask : Byte), Memory.wf s.mem →
    ∃ m', exec (.pshs mask) s =
        .next { s with sp := s.sp - BitVec.ofNat 16 (frameSize mask), mem := m' } ∧
      (s.frameBytes mask).length = frameSize mask ∧
      (∀ k, k < frameSize mask →
        (s.frameBytes mask)[k]? =
          some ({ s with mem := m' }.rawRead (offsetAddr (s.sp - BitVec.ofNat 16 (frameSize mask)) k))) ∧
      (∀ other, (∀ k, k < frameSize mask → other ≠ offsetAddr (s.sp - BitVec.ofNat 16 (frameSize mask)) k) →
        { s with mem := m' }.rawRead other = s.rawRead other)

/-- PULS: the selected registers take the bytes the accessor gives from SP upward, in the order of R155, SP moves past
them, and no other register, no cell and nothing else changes but an attached device's pending bit (R155, R158; the
operand is the spec's decision D13, the byte order of words D12, the accessor D17). -/
def Obligations.PullRegistersResult : Prop :=
  ∀ (s : State) (mask : Byte), ∃ t,
    exec (.puls mask) s = .next t ∧
    (∀ k, k < frameSize mask → (t.frameBytes mask)[k]? = some (s.accessorByte s.sp k)) ∧
    t.sp = s.sp + BitVec.ofNat 16 (frameSize mask) ∧
    t.kbdPending = s.pendingAfter s.sp (frameSize mask) ∧
    (mask.getLsbD 0 = false → t.cc = s.cc) ∧ (mask.getLsbD 1 = false → t.a = s.a) ∧
    (mask.getLsbD 2 = false → t.b = s.b) ∧ (mask.getLsbD 3 = false → t.dp = s.dp) ∧
    (mask.getLsbD 4 = false → t.x = s.x) ∧ (mask.getLsbD 5 = false → t.y = s.y) ∧
    (mask.getLsbD 6 = false → t.u = s.u) ∧ (mask.getLsbD 7 = false → t.pc = s.pc) ∧
    sameButRegisters { s with kbdPending := t.kbdPending } t

/-- R156: a push followed by a pull with the same mask restores every register and SP, for every mask. -/
def Obligations.PullAfterPushRestoresEverything : Prop :=
  ∀ (s : State) (mask : Byte), Memory.wf s.mem →
    s.noPortIn (s.sp - BitVec.ofNat 16 (frameSize mask)) (frameSize mask) →
    (s.pushMultiple mask).pullMultiple mask = { s with mem := (s.pushMultiple mask).mem }

/-- EXG (R161; the packing and the order of the writes are the spec's decision D14): what each register holds after it,
D with A or B included, and that nothing outside the register file changes. -/
def Obligations.ExchangeRegistersResult : Prop :=
  ∀ (s : State) (r1 r2 : RegCode), ∃ t,
    exec (.exg r1 r2) s = .next t ∧
    (regOverlaps r1 r2 = false →
      t.readReg r1 = regTruncate r1 (s.readReg r2) ∧ t.readReg r2 = regTruncate r2 (s.readReg r1)) ∧
    (r1 = r2 → t = s) ∧
    (r1 = .d → r2 = .a → t = { s with a := s.b, b := s.a }) ∧
    (r1 = .d → r2 = .b → t = { s with a := 0#8, b := s.b }) ∧
    (r1 = .a → r2 = .d → t = { s with a := 0#8, b := s.a }) ∧
    (r1 = .b → r2 = .d → t = { s with a := 0#8, b := s.b }) ∧
    (∀ q, regOverlaps r1 q = false → regOverlaps r2 q = false → t.readReg q = s.readReg q) ∧
    sameButRegisters s t

/-- TFR (R162; the packing is the spec's decision D14): the destination holds the source reduced to its width, nothing
that shares no storage with the destination changes, an unmapped destination changes nothing. -/
def Obligations.TransferRegisterResult : Prop :=
  ∀ (s : State) (r1 r2 : RegCode), ∃ t,
    exec (.tfr r1 r2) s = .next t ∧
    t.readReg r2 = regTruncate r2 (s.readReg r1) ∧
    (∀ q, regOverlaps r2 q = false → t.readReg q = s.readReg q) ∧
    (∀ c, r2 = .unmapped c → t = s) ∧
    (∀ c, r1 = .unmapped c → s.readReg r1 = 0#16) ∧
    sameButRegisters s t

/-! ### System instructions (45_system.md) -/

/-- R170: NOP's effect changes nothing, and a step on its byte 12 changes only what the sequencer changes: PC by 1, the
count, the introspection fields. -/
def Obligations.NopChangesNothing : Prop :=
  (∀ s : State, exec .nop s = .next s) ∧
  ∀ s : State, s.fetches → s.rawRead s.pc = 0x12#8 →
    step s = .next { s with
      pc := s.pc + 1#16, instrCount := s.instrCount + 1, lastEa := 0#16, lastPostbyte := 0#8 }

/-- SYNC halts the core and changes nothing else (R171; that 0x13 halts is the spec's decision D3). -/
def Obligations.SyncHaltsTheCore : Prop :=
  ∀ s : State, exec .sync s = .next { s with runState := .halted } ∧
    step { s with runState := .halted } = .next { s with runState := .halted }

/-- RTI restores the 12-byte frame the accessor gives at SP (R172; that it never looks at E is the spec's decision D15, the
accessor D17). -/
def Obligations.ReturnFromInterruptRestoresTheFrame : Prop :=
  ∀ s : State, exec .rti s = .next { s with
    cc := s.accessorByte s.sp 0, a := s.accessorByte s.sp 1, b := s.accessorByte s.sp 2,
    dp := s.accessorByte s.sp 3,
    x := s.accessorByte s.sp 4 ++ s.accessorByte s.sp 5, y := s.accessorByte s.sp 6 ++ s.accessorByte s.sp 7,
    u := s.accessorByte s.sp 8 ++ s.accessorByte s.sp 9, pc := s.accessorByte s.sp 10 ++ s.accessorByte s.sp 11,
    sp := s.sp + 12#16, kbdPending := s.pendingAfter s.sp 12 }

/-- WAI, where WAIT_OPCODE is present: a step on its key waits, with PC past it and nothing pushed (R71, R173; the
instruction is the spec's decision D4, and that the step enters it is the model's choice, log 5). -/
def Obligations.WaitOpcodeWaits : Prop :=
  ∀ (s : State) (op : Byte), s.fetches → s.rawRead s.pc = op → s.params.waitOpcode = some (byteKey op) →
    waitKeyLegal (byteKey op) = true →
    step s = .next { s.fetched 1 with runState := .waitingForInterrupt, instrCount := s.instrCount + 1 }

/-! ### The step (40_fetch_step.md) -/

/-- The two fetch primitives (R80, R81). That a fetch reads the raw cell is the spec's decision D17 (R58; log 8). -/
def Obligations.FetchReadsAtPcAndAdvances : Prop :=
  ∀ s : State,
    s.fetchByte = (s.rawRead s.pc, { s with pc := s.pc + 1#16 }) ∧
    s.fetchByte.2.pc.toNat = (s.pc.toNat + 1) % 65536 ∧
    s.fetchWord.1.toNat = (s.rawRead s.pc).toNat * 256 + (s.rawRead (s.pc + 1#16)).toNat ∧
    s.fetchWord.2 = { s with pc := s.pc + 2#16 }

/-- A step that reaches the fetch runs the instruction the bytes at PC decode to, with PC past its bytes and the
introspection fields cleared, and counts it (R87, R89, R90). -/
def Obligations.StepRunsTheDecodedInstruction : Prop :=
  ∀ (s : State) (i : Instr) (rest : List Byte), s.fetches → decode s.bytesAtPc = .ok (i, rest) →
    step s = match exec i (s.fetched (encode i).length) with
      | .next t => .next { t with instrCount := t.instrCount + 1 }
      | .fault r => .fault r
      | .refused r => .refused r

/-- An unmapped key halts the core with the fault record, the fetched bytes consumed, nothing else changed (R88, R181).
That the report is state, and the address reported for a prefixed key, are the spec's decision D19; the record as one
optional field is the model's (log 9). -/
def Obligations.UnknownOpcodeHaltsTheCore : Prop :=
  ∀ s : State, s.fetches →
    let op := s.rawRead s.pc
    let op2 := s.rawRead (s.pc + 1#16)
    (op ≠ 0x10#8 → op ≠ 0x11#8 → lookupKey (byteKey op) = none → s.params.waitOpcode ≠ some (byteKey op) →
      step s = .next { s.fetched 1 with
        runState := .halted, faultRecord := some { key := byteKey op, addr := s.pc } }) ∧
    (op = 0x10#8 ∨ op = 0x11#8 → lookupKey (escapedKey op op2) = none →
      s.params.waitOpcode ≠ some (escapedKey op op2) →
      step s = .next { s.fetched 2 with
        runState := .halted, faultRecord := some { key := escapedKey op op2, addr := s.pc } })

/-- R83: a halted core does nothing at all, whatever is pending and however many steps it is given. -/
def Obligations.HaltedStepChangesNothing : Prop :=
  ∀ (n : Nat) (s : State), s.runState = .halted → Host.Core.run Sys2Proof.core n s = .next s

/-- A waiting core does nothing without a request and services one (R84; the spec's decision D5, 90_conflicts.md C1). -/
def Obligations.WaitingCoreWakesOnlyForARequest : Prop :=
  ∀ s : State, s.runState = .waitingForInterrupt →
    (s.irqPending = false → step s = .next s) ∧
    (s.irqPending = true → step s = .next s.serviceInterrupt ∧ s.serviceInterrupt.runState = .running)

/-- R86: a Running core with no request pending stalls at a breakpoint and nowhere else, however many steps it takes; a
pending request is serviced there. -/
def Obligations.BreakpointStallsTheCore : Prop :=
  ∀ s : State, s.runState = .running →
    (s.pc ∈ s.breakpoints → s.irqPending = false → ∀ n, Host.Core.run Sys2Proof.core n s = .next s) ∧
    (s.pc ∈ s.breakpoints → s.irqPending = true → step s = .next s.serviceInterrupt) ∧
    (s.pc ∉ s.breakpoints → s.irqPending = false → step s = s.runInstruction)

/-- R92: after an instruction that transfers no control, PC is the address of the byte after it, modulo 65536. -/
def Obligations.PcIsPastTheInstruction : Prop :=
  ∀ (s t : State) (i : Instr) (rest : List Byte), s.fetches → decode s.bytesAtPc = .ok (i, rest) →
    step s = .next t →
    (match i with
      | .bra _ | .rts | .rti => False
      | .puls mask => mask.getLsbD 7 = false
      | .exg r1 r2 => r1 ≠ .pc ∧ r2 ≠ .pc
      | .tfr _ r2 => r2 ≠ .pc
      | _ => True) →
    t.pc.toNat = (s.pc.toNat + (encode i).length) % 65536

/-- The introspection fields after an executed instruction: zero, but for LEAX (R90; the spec's decision D21). -/
def Obligations.IntrospectionIsZeroButForLeax : Prop :=
  ∀ (s t : State) (i : Instr) (rest : List Byte), s.fetches → decode s.bytesAtPc = .ok (i, rest) →
    step s = .next t →
    match i with
    | .leax off => t.lastEa = t.x ∧ t.lastPostbyte = off
    | _ => t.lastEa = 0#16 ∧ t.lastPostbyte = 0#8

/-- The system state (breakpoints, device, parameters, request, count, fault record): what no step changes of it, and what
only one case of a step changes (R91). The free-value counter is the model's own (log 3). -/
def Obligations.SystemStateChangesOnlyInItsCase : Prop :=
  ∀ s t : State, step s = .next t →
    t.breakpoints = s.breakpoints ∧ t.kbdBuffer = s.kbdBuffer ∧ t.params = s.params ∧ t.freeCount = s.freeCount ∧
    (t.irqPending = true → s.irqPending = true) ∧
    (t.irqPending ≠ s.irqPending → s.runState ≠ .halted ∧ t = s.serviceInterrupt) ∧
    (t.instrCount = s.instrCount ∨ (s.fetches ∧ t.instrCount = s.instrCount + 1)) ∧
    (t.faultRecord ≠ s.faultRecord → s.fetches ∧ t.runState = .halted ∧ t.instrCount = s.instrCount) ∧
    (t.kbdPending = true → s.kbdPending = true)

/-- Every run of steps, from any state, goes on: no step faults or is refused (R203). -/
def Obligations.EveryRunOfStepsGoesOn : Prop :=
  ∀ (n : Nat) (s : State), ∃ t : State, Host.Core.run Sys2Proof.core n s = .next t

/-- A table word placed where the next instruction is fetched is decoded and run by the very next step, from any state
(the model's own placing, log 13). -/
def Obligations.PlacedWordIsRunNext : Prop :=
  ∀ (s : State) (nbits w : Nat) (i : Instr), Memory.wf s.mem → decodeTableWord nbits w = some i →
    (s.withFetchWord nbits w).fetches ∧
    (s.withFetchWord nbits w).pc = s.pc ∧
    step (s.withFetchWord nbits w) =
      counted (exec i ((s.withFetchWord nbits w).fetched (encode i).length))

/-! ### Interrupts, run states, device, host (60, 70) -/

/-- R182: a request is accepted only while CC.I is 0, in any run state, and changes nothing but the pending flag; an
accepted one is serviced by the next step, but a halted core keeps it unserviced through any number of steps. -/
def Obligations.TriggerIsAcceptedOnlyUnmasked : Prop :=
  ∀ s : State,
    (s.getFlag .i = true → s.triggerIRQ = s) ∧
    (s.getFlag .i = false → s.triggerIRQ = { s with irqPending := true }) ∧
    (s.getFlag .i = false → s.runState ≠ .halted → step s.triggerIRQ = .next s.triggerIRQ.serviceInterrupt) ∧
    (s.getFlag .i = false → s.runState = .halted → ∀ n,
      Host.Core.run Sys2Proof.core n s.triggerIRQ = .next { s with irqPending := true })

/-- A request made while masked is lost: after any number of steps, nothing is pending (R184). -/
def Obligations.MaskedRequestIsLost : Prop :=
  ∀ (n : Nat) (s t : State), s.getFlag .i = true → s.irqPending = false →
    Host.Core.run Sys2Proof.core n s.triggerIRQ = .next t → t.irqPending = false

/-- A step of a non-halted core with a request pending pushes the 12-byte frame (CC with E set and I as it was), sets E
and I, loads PC from the vector read after the push, and leaves everything else (R85, R185). That CC.I is not tested again
and that the count, breakpoints and introspection fields are left alone is the spec's decision D27 (log 14), the pushed
word order D12 and the vector address D16 (log 7), the layer of the stack and vector accesses D17. -/
def Obligations.InterruptEntryResult : Prop :=
  ∀ s : State, Memory.wf s.mem → s.runState ≠ .halted → s.irqPending = true →
    ∃ (pushed : State) (cc' : Byte), pushed = { s with mem := pushed.mem } ∧
      step s = .next { s with
        mem := pushed.mem, cc := cc', sp := s.sp - 12#16,
        pc := pushed.accessorByte Config.irqVectorAddr 0 ++ pushed.accessorByte Config.irqVectorAddr 1,
        kbdPending := pushed.pendingAfter Config.irqVectorAddr 2,
        runState := .running, irqPending := false } ∧
      ccWrites s.cc cc' [(.e, true), (.i, true)] ∧
      (∀ k, k < 12 → ({ s with cc := s.cc ||| 0x80#8 }.frameBytes 0xFF#8)[k]? =
        some (pushed.rawRead (offsetAddr (s.sp - 12#16) k))) ∧
      (∀ other, (∀ k, k < 12 → other ≠ offsetAddr (s.sp - 12#16) k) →
        pushed.rawRead other = s.rawRead other)

/-- Entry and return cancel (R189, R190): after an interrupt is taken, RTI at once restores every register and SP; of the
flags only E is set, and the core is Running with nothing pending. -/
def Obligations.ReturnUndoesInterruptEntry : Prop :=
  ∀ s : State, Memory.wf s.mem → s.runState ≠ .halted → s.irqPending = true →
    s.noPortIn (s.sp - 12#16) 12 →
    ∃ t u, step s = .next t ∧ exec .rti t = .next u ∧
      u = { s with cc := s.cc ||| 0x80#8, mem := t.mem, kbdPending := t.kbdPending,
                   runState := .running, irqPending := false }

/-- R188: the run-state machine, row by row. -/
def Obligations.RunStatesChangeAsTheTableSays : Prop :=
  ∀ s t : State, step s = .next t →
    (s.runState = .halted → t.runState = .halted) ∧
    (s.runState = .waitingForInterrupt → s.irqPending = false → t.runState = .waitingForInterrupt) ∧
    (s.runState ≠ .halted → s.irqPending = true → t.runState = .running) ∧
    (s.runState = .running → s.irqPending = false → s.pc ∈ s.breakpoints → t.runState = .running) ∧
    (s.fetches → ∀ i rest, decode s.bytesAtPc = .ok (i, rest) →
      t.runState = if i = .sync then .halted else .running) ∧
    (s.fetches → ∀ key, decode s.bytesAtPc = .error (.unknownOpcode key) →
      t.runState = if s.params.waitOpcode = some key then .waitingForInterrupt else .halted) ∧
    s.triggerIRQ.runState = s.runState ∧ s.hostReset.runState = .running

/-- Halted is terminal until reset: whatever the host, the device and the interrupt source do short of reset, a halted
core stays halted, executes nothing and keeps its fault record (R188, R204). -/
def Obligations.HaltedUntilReset : Prop :=
  ∀ (ts : List Transaction) (s t : State), s.runState = .halted → Transaction.reset ∉ ts →
    transactAll ts s = .next t →
    t.runState = .halted ∧ t.instrCount = s.instrCount ∧ t.faultRecord = s.faultRecord

/-- R197: an arriving byte replaces the buffered one, is pending, and requests an interrupt; no cell but the two ports can
change, whatever the device publishes there. -/
def Obligations.ArrivingByteIsBufferedAndRequests : Prop :=
  ∀ (s : State) (k : Byte) (ports : KbdPorts), s.params.kbd = some ports →
    (s.inputArrival k).kbdBuffer = k ∧ (s.inputArrival k).kbdPending = true ∧
    (s.inputArrival k).irqPending = (s.irqPending || !s.getFlag .i) ∧
    (∀ other, other ≠ ports.dataAddr → other ≠ ports.statusAddr →
      (s.inputArrival k).rawRead other = s.rawRead other) ∧
    s.inputArrival k = { s with
      kbdBuffer := k, kbdPending := true, irqPending := (s.inputArrival k).irqPending,
      mem := (s.inputArrival k).mem, freeCount := (s.inputArrival k).freeCount }

/-- R200: the breakpoint set is a set of masked addresses; adding and removing change that membership only. -/
def Obligations.BreakpointsAreASetOfMaskedAddresses : Prop :=
  ∀ (s : State) (addr : Int) (x : Word),
    (x ∈ (s.addBreakpoint addr).breakpoints ↔ x = BitVec.ofInt 16 addr ∨ x ∈ s.breakpoints) ∧
    (x ∈ (s.removeBreakpoint addr).breakpoints ↔ x ≠ BitVec.ofInt 16 addr ∧ x ∈ s.breakpoints) ∧
    (BitVec.ofInt 16 addr ∉ s.breakpoints → s.removeBreakpoint addr = s) ∧
    s.addBreakpoint addr = { s with breakpoints := (s.addBreakpoint addr).breakpoints } ∧
    s.removeBreakpoint addr = { s with breakpoints := (s.removeBreakpoint addr).breakpoints } ∧
    (s.breakpoints.Pairwise (· < ·) →
      (s.addBreakpoint addr).breakpoints.Pairwise (· < ·) ∧
      (s.addBreakpoint addr).addBreakpoint addr = s.addBreakpoint addr) ∧
    s.hostReset.breakpoints = []

/-- Reset gives every register and cell its reset value from any state and leaves the device as it is (R30, R220, R222;
the counter, the introspection fields, the fault record and the device are the spec's decisions D19 to D22). -/
def Obligations.ResetGivesTheResetValues : Prop :=
  ∀ s : State,
    (∀ addr, s.hostReset.rawRead addr = 0#8) ∧
    s.hostReset = { s with
      pc := 0x0000#16, a := 0#8, b := 0#8, x := 0#16, y := 0#16, sp := 0xFFFE#16, u := 0xFFFE#16, dp := 0#8, cc := 0#8,
      mem := [], runState := .running, irqPending := false, breakpoints := [], instrCount := 0,
      lastEa := 0#16, lastPostbyte := 0#8, faultRecord := none } ∧
    s.hostReset.hostReset = s.hostReset ∧
    State.reset = { State.reset.hostReset with kbdBuffer := State.reset.kbdBuffer }

/-- The flags steer nothing (R13, R140): but for the whole-CC readers PSHS, EXG and TFR, an instruction run with another
CC does the same to everything but CC. -/
def Obligations.OnlyWholeCcReadersReadFlags : Prop :=
  ∀ (i : Instr) (s t : State) (cc : Byte),
    (match i with
      | .pshs _ | .exg _ _ | .tfr _ _ => False
      | _ => True) →
    exec i s = .next t → ∃ cc', exec i { s with cc := cc } = .next { t with cc := cc' }

/-! ### The core's invariant -/

/-- The invariant holds at power-on, for every choice of the open parameters. -/
def Obligations.InvariantHoldsAtPowerOn : Prop :=
  (∀ p : Params, (State.powerOn p).Inv) ∧ State.reset.Inv

/-- Every step keeps the invariant: canonical memory and breakpoints, a fault record only of a halted core and of a key
that is neither mapped nor the wait opcode, waiting only where a wait opcode exists (R18, R21, R71, R181, R188). -/
def Obligations.StepKeepsTheInvariant : Prop :=
  ∀ s t : State, s.Inv → step s = .next t → t.Inv

/-- Every sequence of transactions of the host, the device and the interrupt source, steps among them, keeps the
invariant and the parameters. -/
def Obligations.TransactionsKeepTheInvariant : Prop :=
  ∀ (ts : List Transaction) (s t : State), s.Inv → transactAll ts s = .next t → t.Inv ∧ t.params = s.params
end

