-- ==== Sys2Proof/Laws/Memory.lean ====
section
/-! SUPPORT. The laws of the memory list: a read after a write, and that a write keeps the one canonical form. -/

namespace Sys2Proof.Machine

/-- A write leaves every other address alone, in any list. -/
theorem Memory.read_write_other (m : Memory) {a b : Nat} (v : Byte) (h : b ≠ a) :
    Memory.read (Memory.write m a v) b = Memory.read m b := by
  induction m with
  | nil => by_cases hv : v = Memory.unlisted <;> simp [Memory.write, Memory.read, hv, h.symm]
  | cons c rest ih =>
    obtain ⟨k, w⟩ := c
    unfold Memory.write
    split
    · split <;> simp [Memory.read, h.symm]
    · split
      · subst_vars; split <;> simp [Memory.read, h.symm]
      · simp [Memory.read, ih]

/-- An address below every listed one reads as unlisted. -/
theorem Memory.read_below (m : Memory) (a : Nat) (h : ∀ c ∈ m, a < c.1) :
    Memory.read m a = Memory.unlisted := by
  induction m with
  | nil => rfl
  | cons c rest ih =>
    have hc : a < c.1 := h c (by simp)
    simp [Memory.read, Nat.ne_of_gt hc, ih fun d hd => h d (by simp [hd])]

/-- In a canonical memory a read of the address just written gives the value written. -/
theorem Memory.read_write_same (m : Memory) (a : Nat) (v : Byte) (h : Memory.wf m) :
    Memory.read (Memory.write m a v) a = v := by
  obtain ⟨hs, hc⟩ := h
  induction m with
  | nil => by_cases hv : v = Memory.unlisted <;> simp [Memory.write, Memory.read, hv]
  | cons c rest ih =>
    obtain ⟨k, w⟩ := c
    obtain ⟨hk, hrest⟩ := List.pairwise_cons.1 hs
    have ih := ih hrest fun d hd => hc d (by simp [hd])
    unfold Memory.write
    split
    · rename_i hlt
      split
      · rename_i hv
        rw [hv]
        refine Memory.read_below _ a fun d hd => ?_
        obtain rfl | hd := List.mem_cons.1 hd
        · exact hlt
        · exact Nat.lt_trans hlt (hk d hd)
      · simp [Memory.read]
    · split
      · rename_i heq
        split
        · rename_i hv
          rw [hv]
          exact Memory.read_below _ a fun d hd => heq ▸ hk d hd
        · simp [Memory.read]
      · rename_i hne
        simp [Memory.read, Ne.symm hne, ih]

/-- What a write lists: the address written, or what was listed already. -/
theorem Memory.mem_write (m : Memory) (a : Nat) (v : Byte) {c : Host.Cell}
    (h : c ∈ Memory.write m a v) : c ∈ m ∨ (c = (a, v) ∧ v ≠ Memory.unlisted) := by
  induction m with
  | nil =>
    unfold Memory.write at h
    split at h <;> simp_all
  | cons d rest ih =>
    obtain ⟨k, w⟩ := d
    unfold Memory.write at h
    split at h
    · split at h
      · exact .inl h
      · obtain rfl | h := List.mem_cons.1 h
        · exact .inr ⟨rfl, ‹_›⟩
        · exact .inl h
    · split at h
      · split at h
        · exact .inl (by simp [h])
        · obtain rfl | h := List.mem_cons.1 h
          · exact .inr ⟨rfl, ‹_›⟩
          · exact .inl (by simp [h])
      · obtain rfl | h := List.mem_cons.1 h
        · exact .inl (by simp)
        · exact (ih h).imp (fun h => by simp [h]) id

/-- A write of a cell below 65536 keeps the canonical form. -/
theorem Memory.write_wf (m : Memory) (a : Nat) (v : Byte) (ha : a < Config.memSize)
    (h : Memory.wf m) : Memory.wf (Memory.write m a v) := by
  obtain ⟨hs, hc⟩ := h
  refine ⟨?_, fun c hcm => ?_⟩
  · clear hc
    induction m with
    | nil => unfold Memory.write; split <;> simp
    | cons d rest ih =>
      obtain ⟨k, w⟩ := d
      obtain ⟨hk, hrest⟩ := List.pairwise_cons.1 hs
      unfold Memory.write
      split
      · rename_i hlt
        split
        · exact hs
        · refine List.pairwise_cons.2 ⟨fun d hd => ?_, hs⟩
          obtain rfl | hd := List.mem_cons.1 hd
          · exact hlt
          · exact Nat.lt_trans hlt (hk d hd)
      · split
        · rename_i heq
          split
          · exact hrest
          · exact List.pairwise_cons.2 ⟨fun d hd => heq ▸ hk d hd, hrest⟩
        · rename_i hlt hne
          refine List.pairwise_cons.2 ⟨fun d hd => ?_, ih hrest⟩
          obtain hd | ⟨rfl, -⟩ := Memory.mem_write rest a v hd
          · exact hk d hd
          · exact Nat.lt_of_le_of_ne (Nat.le_of_not_lt hlt) (Ne.symm hne)
  · obtain h | ⟨rfl, hv⟩ := Memory.mem_write m a v hcm
    · exact hc c h
    · exact ⟨ha, hv⟩

/-- In a canonical memory every listed cell reads as it is listed. -/
theorem Memory.read_of_mem {m : Memory} (h : Memory.wf m) {c : Host.Cell} (hc : c ∈ m) : Memory.read m c.1 = c.2 := by
  obtain ⟨hs, hb⟩ := h
  induction m with
  | nil => cases hc
  | cons d rest ih =>
    obtain ⟨k, w⟩ := d
    obtain ⟨hk, hr⟩ := List.pairwise_cons.1 hs
    obtain rfl | hc := List.mem_cons.1 hc
    · simp [Memory.read]
    · have : k ≠ c.1 := Nat.ne_of_lt (hk c hc)
      simp [Memory.read, this, ih hc hr fun d hd => hb d (by simp [hd])]

/-- The first cell of one canonical memory is not below the first of another that has the same cells. -/
theorem Memory.head_le {m n : Memory} {c d : Host.Cell} (hm : Memory.wf (c :: m)) (hn : Memory.wf (d :: n))
    (h : Memory.read (c :: m) d.1 = Memory.read (d :: n) d.1) : c.1 ≤ d.1 := by
  by_contra hlt
  rw [Memory.read_of_mem hn (by simp), Memory.read_below] at h
  · exact (hn.2 d (by simp)).2 h.symm
  · intro e he
    have := (List.pairwise_cons.1 hm.1).1
    obtain rfl | he := List.mem_cons.1 he
    · omega
    · have := this e he; omega

/-- Two canonical memories with the same cells are the same data. -/
theorem Memory.ext_cells {m n : Memory} (hm : Memory.wf m) (hn : Memory.wf n)
    (h : ∀ a, Memory.read m a = Memory.read n a) : m = n := by
  induction m generalizing n with
  | nil =>
    cases n with
    | nil => rfl
    | cons d n => exact absurd ((Memory.read_of_mem hn (by simp)).symm.trans (h d.1).symm) (hn.2 d (by simp)).2
  | cons c m ih =>
    cases n with
    | nil => exact absurd ((Memory.read_of_mem hm (by simp)).symm.trans (h c.1)) (hm.2 c (by simp)).2
    | cons d n =>
      have hk := Nat.le_antisymm (Memory.head_le hm hn (h d.1)) (Memory.head_le hn hm (h c.1).symm)
      have hv := h c.1
      rw [Memory.read_of_mem hm (by simp), hk, Memory.read_of_mem hn (by simp)] at hv
      obtain rfl : c = d := Prod.ext hk hv
      obtain ⟨hs, hb⟩ := hm
      obtain ⟨hs', hb'⟩ := hn
      obtain ⟨h1, h2⟩ := List.pairwise_cons.1 hs
      obtain ⟨h1', h2'⟩ := List.pairwise_cons.1 hs'
      rw [ih ⟨h2, fun e he => hb e (by simp [he])⟩ ⟨h2', fun e he => hb' e (by simp [he])⟩ fun a => ?_]
      have ha := h a
      obtain ⟨k, w⟩ := c
      by_cases hka : k = a
      · subst hka
        have hnot : ∀ l : Memory, (∀ e ∈ l, k < e.1) → Memory.read l k = Memory.unlisted := fun l => Memory.read_below l k
        rw [hnot m h1, hnot n h1']
      · simpa [Memory.read, hka] using ha

/-- Every address of the machine is below 65536. -/
theorem word_lt_memSize (addr : Word) : addr.toNat < Config.memSize := addr.isLt

/-- `RawWrite` keeps the canonical form (R41). -/
theorem rawWrite_wf (s : State) (addr : Word) (v : Byte) (h : Memory.wf s.mem) :
    Memory.wf (s.rawWrite addr v).mem :=
  Memory.write_wf _ _ _ (word_lt_memSize addr) h

/-- `RawRead` after `RawWrite` (R41, R51). -/
theorem rawRead_rawWrite (s : State) (addr other : Word) (v : Byte) (h : Memory.wf s.mem) :
    (s.rawWrite addr v).rawRead other = if other = addr then v else s.rawRead other := by
  split
  · subst_vars; exact Memory.read_write_same _ _ _ h
  · rename_i hne
    exact Memory.read_write_other _ _ fun hh => hne (BitVec.eq_of_toNat_eq hh)

/-- `RawRead` of a cell not written, in any memory (R41). -/
theorem rawRead_rawWrite_other (s : State) {addr other : Word} (v : Byte) (h : other ≠ addr) :
    (s.rawWrite addr v).rawRead other = s.rawRead other :=
  Memory.read_write_other _ _ fun hh => h (BitVec.eq_of_toNat_eq hh)

end Sys2Proof.Machine
end

