-- ==== Sys2Proof/Laws/State.lean ====
section
/-! SUPPORT. What each named state operation leaves alone, field by field, so that no later proof unfolds a record
update. What an operation does to the fields it writes is said once, in the file of its own laws. -/

namespace Sys2Proof.Machine

/-! ### Operations that write CC only -/

@[simp] theorem setFlag_keeps (s : State) (bit : Flag) (v : Bool) :
    (s.setFlag bit v).a = s.a ∧ (s.setFlag bit v).b = s.b ∧ (s.setFlag bit v).x = s.x ∧
    (s.setFlag bit v).y = s.y ∧ (s.setFlag bit v).u = s.u ∧ (s.setFlag bit v).sp = s.sp ∧
    (s.setFlag bit v).pc = s.pc ∧ (s.setFlag bit v).dp = s.dp ∧ (s.setFlag bit v).mem = s.mem ∧
    (s.setFlag bit v).runState = s.runState ∧ (s.setFlag bit v).irqPending = s.irqPending ∧
    (s.setFlag bit v).breakpoints = s.breakpoints ∧ (s.setFlag bit v).instrCount = s.instrCount ∧
    (s.setFlag bit v).lastEa = s.lastEa ∧ (s.setFlag bit v).lastPostbyte = s.lastPostbyte ∧
    (s.setFlag bit v).faultRecord = s.faultRecord ∧ (s.setFlag bit v).kbdBuffer = s.kbdBuffer ∧
    (s.setFlag bit v).kbdPending = s.kbdPending ∧ (s.setFlag bit v).freeCount = s.freeCount ∧
    (s.setFlag bit v).params = s.params :=
  ⟨rfl, rfl, rfl, rfl, rfl, rfl, rfl, rfl, rfl, rfl, rfl, rfl, rfl, rfl, rfl, rfl, rfl, rfl, rfl, rfl⟩

@[simp] theorem setNZ8_keeps (s : State) (m : Byte) :
    (s.setNZ8 m).a = s.a ∧ (s.setNZ8 m).b = s.b ∧ (s.setNZ8 m).x = s.x ∧ (s.setNZ8 m).y = s.y ∧
    (s.setNZ8 m).u = s.u ∧ (s.setNZ8 m).sp = s.sp ∧ (s.setNZ8 m).pc = s.pc ∧ (s.setNZ8 m).dp = s.dp ∧
    (s.setNZ8 m).mem = s.mem ∧ (s.setNZ8 m).runState = s.runState ∧ (s.setNZ8 m).irqPending = s.irqPending ∧
    (s.setNZ8 m).breakpoints = s.breakpoints ∧ (s.setNZ8 m).instrCount = s.instrCount ∧
    (s.setNZ8 m).lastEa = s.lastEa ∧ (s.setNZ8 m).lastPostbyte = s.lastPostbyte ∧
    (s.setNZ8 m).faultRecord = s.faultRecord ∧ (s.setNZ8 m).kbdBuffer = s.kbdBuffer ∧
    (s.setNZ8 m).kbdPending = s.kbdPending ∧ (s.setNZ8 m).freeCount = s.freeCount ∧
    (s.setNZ8 m).params = s.params :=
  ⟨rfl, rfl, rfl, rfl, rfl, rfl, rfl, rfl, rfl, rfl, rfl, rfl, rfl, rfl, rfl, rfl, rfl, rfl, rfl, rfl⟩

@[simp] theorem setNZ16_keeps (s : State) (m : Word) :
    (s.setNZ16 m).a = s.a ∧ (s.setNZ16 m).b = s.b ∧ (s.setNZ16 m).x = s.x ∧ (s.setNZ16 m).y = s.y ∧
    (s.setNZ16 m).u = s.u ∧ (s.setNZ16 m).sp = s.sp ∧ (s.setNZ16 m).pc = s.pc ∧ (s.setNZ16 m).dp = s.dp ∧
    (s.setNZ16 m).mem = s.mem ∧ (s.setNZ16 m).runState = s.runState ∧ (s.setNZ16 m).irqPending = s.irqPending ∧
    (s.setNZ16 m).breakpoints = s.breakpoints ∧ (s.setNZ16 m).instrCount = s.instrCount ∧
    (s.setNZ16 m).lastEa = s.lastEa ∧ (s.setNZ16 m).lastPostbyte = s.lastPostbyte ∧
    (s.setNZ16 m).faultRecord = s.faultRecord ∧ (s.setNZ16 m).kbdBuffer = s.kbdBuffer ∧
    (s.setNZ16 m).kbdPending = s.kbdPending ∧ (s.setNZ16 m).freeCount = s.freeCount ∧
    (s.setNZ16 m).params = s.params :=
  ⟨rfl, rfl, rfl, rfl, rfl, rfl, rfl, rfl, rfl, rfl, rfl, rfl, rfl, rfl, rfl, rfl, rfl, rfl, rfl, rfl⟩

@[simp] theorem addFlags8_keeps (s : State) (p q : Byte) (r : BitVec 9) :
    (s.addFlags8 p q r).a = s.a ∧ (s.addFlags8 p q r).b = s.b ∧ (s.addFlags8 p q r).x = s.x ∧
    (s.addFlags8 p q r).y = s.y ∧ (s.addFlags8 p q r).u = s.u ∧ (s.addFlags8 p q r).sp = s.sp ∧
    (s.addFlags8 p q r).pc = s.pc ∧ (s.addFlags8 p q r).dp = s.dp ∧ (s.addFlags8 p q r).mem = s.mem ∧
    (s.addFlags8 p q r).runState = s.runState ∧ (s.addFlags8 p q r).irqPending = s.irqPending ∧
    (s.addFlags8 p q r).breakpoints = s.breakpoints ∧ (s.addFlags8 p q r).instrCount = s.instrCount ∧
    (s.addFlags8 p q r).lastEa = s.lastEa ∧ (s.addFlags8 p q r).lastPostbyte = s.lastPostbyte ∧
    (s.addFlags8 p q r).faultRecord = s.faultRecord ∧ (s.addFlags8 p q r).kbdBuffer = s.kbdBuffer ∧
    (s.addFlags8 p q r).kbdPending = s.kbdPending ∧ (s.addFlags8 p q r).freeCount = s.freeCount ∧
    (s.addFlags8 p q r).params = s.params :=
  ⟨rfl, rfl, rfl, rfl, rfl, rfl, rfl, rfl, rfl, rfl, rfl, rfl, rfl, rfl, rfl, rfl, rfl, rfl, rfl, rfl⟩

@[simp] theorem subFlags8_keeps (s : State) (p q : Byte) (r : BitVec 9) :
    (s.subFlags8 p q r).a = s.a ∧ (s.subFlags8 p q r).b = s.b ∧ (s.subFlags8 p q r).x = s.x ∧
    (s.subFlags8 p q r).y = s.y ∧ (s.subFlags8 p q r).u = s.u ∧ (s.subFlags8 p q r).sp = s.sp ∧
    (s.subFlags8 p q r).pc = s.pc ∧ (s.subFlags8 p q r).dp = s.dp ∧ (s.subFlags8 p q r).mem = s.mem ∧
    (s.subFlags8 p q r).runState = s.runState ∧ (s.subFlags8 p q r).irqPending = s.irqPending ∧
    (s.subFlags8 p q r).breakpoints = s.breakpoints ∧ (s.subFlags8 p q r).instrCount = s.instrCount ∧
    (s.subFlags8 p q r).lastEa = s.lastEa ∧ (s.subFlags8 p q r).lastPostbyte = s.lastPostbyte ∧
    (s.subFlags8 p q r).faultRecord = s.faultRecord ∧ (s.subFlags8 p q r).kbdBuffer = s.kbdBuffer ∧
    (s.subFlags8 p q r).kbdPending = s.kbdPending ∧ (s.subFlags8 p q r).freeCount = s.freeCount ∧
    (s.subFlags8 p q r).params = s.params :=
  ⟨rfl, rfl, rfl, rfl, rfl, rfl, rfl, rfl, rfl, rfl, rfl, rfl, rfl, rfl, rfl, rfl, rfl, rfl, rfl, rfl⟩

@[simp] theorem flagsOfAdd_keeps (s : State) (p q : Byte) :
    (s.flagsOfAdd p q).a = s.a ∧ (s.flagsOfAdd p q).b = s.b ∧ (s.flagsOfAdd p q).x = s.x ∧
    (s.flagsOfAdd p q).y = s.y ∧ (s.flagsOfAdd p q).u = s.u ∧ (s.flagsOfAdd p q).sp = s.sp ∧
    (s.flagsOfAdd p q).pc = s.pc ∧ (s.flagsOfAdd p q).dp = s.dp ∧ (s.flagsOfAdd p q).mem = s.mem ∧
    (s.flagsOfAdd p q).runState = s.runState ∧ (s.flagsOfAdd p q).irqPending = s.irqPending ∧
    (s.flagsOfAdd p q).breakpoints = s.breakpoints ∧ (s.flagsOfAdd p q).instrCount = s.instrCount ∧
    (s.flagsOfAdd p q).lastEa = s.lastEa ∧ (s.flagsOfAdd p q).lastPostbyte = s.lastPostbyte ∧
    (s.flagsOfAdd p q).faultRecord = s.faultRecord ∧ (s.flagsOfAdd p q).kbdBuffer = s.kbdBuffer ∧
    (s.flagsOfAdd p q).kbdPending = s.kbdPending ∧ (s.flagsOfAdd p q).freeCount = s.freeCount ∧
    (s.flagsOfAdd p q).params = s.params :=
  ⟨rfl, rfl, rfl, rfl, rfl, rfl, rfl, rfl, rfl, rfl, rfl, rfl, rfl, rfl, rfl, rfl, rfl, rfl, rfl, rfl⟩

@[simp] theorem flagsOfSub_keeps (s : State) (p q : Byte) :
    (s.flagsOfSub p q).a = s.a ∧ (s.flagsOfSub p q).b = s.b ∧ (s.flagsOfSub p q).x = s.x ∧
    (s.flagsOfSub p q).y = s.y ∧ (s.flagsOfSub p q).u = s.u ∧ (s.flagsOfSub p q).sp = s.sp ∧
    (s.flagsOfSub p q).pc = s.pc ∧ (s.flagsOfSub p q).dp = s.dp ∧ (s.flagsOfSub p q).mem = s.mem ∧
    (s.flagsOfSub p q).runState = s.runState ∧ (s.flagsOfSub p q).irqPending = s.irqPending ∧
    (s.flagsOfSub p q).breakpoints = s.breakpoints ∧ (s.flagsOfSub p q).instrCount = s.instrCount ∧
    (s.flagsOfSub p q).lastEa = s.lastEa ∧ (s.flagsOfSub p q).lastPostbyte = s.lastPostbyte ∧
    (s.flagsOfSub p q).faultRecord = s.faultRecord ∧ (s.flagsOfSub p q).kbdBuffer = s.kbdBuffer ∧
    (s.flagsOfSub p q).kbdPending = s.kbdPending ∧ (s.flagsOfSub p q).freeCount = s.freeCount ∧
    (s.flagsOfSub p q).params = s.params :=
  ⟨rfl, rfl, rfl, rfl, rfl, rfl, rfl, rfl, rfl, rfl, rfl, rfl, rfl, rfl, rfl, rfl, rfl, rfl, rfl, rfl⟩

/-! ### Memory, the device, D -/

@[simp] theorem rawWrite_keeps (s : State) (addr : Word) (v : Byte) :
    (s.rawWrite addr v).a = s.a ∧ (s.rawWrite addr v).b = s.b ∧ (s.rawWrite addr v).x = s.x ∧
    (s.rawWrite addr v).y = s.y ∧ (s.rawWrite addr v).u = s.u ∧ (s.rawWrite addr v).sp = s.sp ∧
    (s.rawWrite addr v).pc = s.pc ∧ (s.rawWrite addr v).dp = s.dp ∧ (s.rawWrite addr v).cc = s.cc ∧
    (s.rawWrite addr v).runState = s.runState ∧ (s.rawWrite addr v).irqPending = s.irqPending ∧
    (s.rawWrite addr v).breakpoints = s.breakpoints ∧ (s.rawWrite addr v).instrCount = s.instrCount ∧
    (s.rawWrite addr v).lastEa = s.lastEa ∧ (s.rawWrite addr v).lastPostbyte = s.lastPostbyte ∧
    (s.rawWrite addr v).faultRecord = s.faultRecord ∧ (s.rawWrite addr v).kbdBuffer = s.kbdBuffer ∧
    (s.rawWrite addr v).kbdPending = s.kbdPending ∧ (s.rawWrite addr v).freeCount = s.freeCount ∧
    (s.rawWrite addr v).params = s.params :=
  ⟨rfl, rfl, rfl, rfl, rfl, rfl, rfl, rfl, rfl, rfl, rfl, rfl, rfl, rfl, rfl, rfl, rfl, rfl, rfl, rfl⟩

@[simp] theorem memWrite_keeps (s : State) (addr : Word) (v : Byte) :
    (s.memWrite addr v).a = s.a ∧ (s.memWrite addr v).b = s.b ∧ (s.memWrite addr v).x = s.x ∧
    (s.memWrite addr v).y = s.y ∧ (s.memWrite addr v).u = s.u ∧ (s.memWrite addr v).sp = s.sp ∧
    (s.memWrite addr v).pc = s.pc ∧ (s.memWrite addr v).dp = s.dp ∧ (s.memWrite addr v).cc = s.cc ∧
    (s.memWrite addr v).runState = s.runState ∧ (s.memWrite addr v).irqPending = s.irqPending ∧
    (s.memWrite addr v).breakpoints = s.breakpoints ∧ (s.memWrite addr v).instrCount = s.instrCount ∧
    (s.memWrite addr v).lastEa = s.lastEa ∧ (s.memWrite addr v).lastPostbyte = s.lastPostbyte ∧
    (s.memWrite addr v).faultRecord = s.faultRecord ∧ (s.memWrite addr v).kbdBuffer = s.kbdBuffer ∧
    (s.memWrite addr v).kbdPending = s.kbdPending ∧ (s.memWrite addr v).freeCount = s.freeCount ∧
    (s.memWrite addr v).params = s.params :=
  ⟨rfl, rfl, rfl, rfl, rfl, rfl, rfl, rfl, rfl, rfl, rfl, rfl, rfl, rfl, rfl, rfl, rfl, rfl, rfl, rfl⟩

@[simp] theorem memWriteWord_keeps (s : State) (addr v : Word) :
    (s.memWriteWord addr v).a = s.a ∧ (s.memWriteWord addr v).b = s.b ∧ (s.memWriteWord addr v).x = s.x ∧
    (s.memWriteWord addr v).y = s.y ∧ (s.memWriteWord addr v).u = s.u ∧ (s.memWriteWord addr v).sp = s.sp ∧
    (s.memWriteWord addr v).pc = s.pc ∧ (s.memWriteWord addr v).dp = s.dp ∧ (s.memWriteWord addr v).cc = s.cc ∧
    (s.memWriteWord addr v).runState = s.runState ∧ (s.memWriteWord addr v).irqPending = s.irqPending ∧
    (s.memWriteWord addr v).breakpoints = s.breakpoints ∧ (s.memWriteWord addr v).instrCount = s.instrCount ∧
    (s.memWriteWord addr v).lastEa = s.lastEa ∧ (s.memWriteWord addr v).lastPostbyte = s.lastPostbyte ∧
    (s.memWriteWord addr v).faultRecord = s.faultRecord ∧ (s.memWriteWord addr v).kbdBuffer = s.kbdBuffer ∧
    (s.memWriteWord addr v).kbdPending = s.kbdPending ∧ (s.memWriteWord addr v).freeCount = s.freeCount ∧
    (s.memWriteWord addr v).params = s.params :=
  ⟨rfl, rfl, rfl, rfl, rfl, rfl, rfl, rfl, rfl, rfl, rfl, rfl, rfl, rfl, rfl, rfl, rfl, rfl, rfl, rfl⟩

@[simp] theorem deviceReadData_keeps (s : State) :
    (s.deviceReadData.2).a = s.a ∧ (s.deviceReadData.2).b = s.b ∧ (s.deviceReadData.2).x = s.x ∧
    (s.deviceReadData.2).y = s.y ∧ (s.deviceReadData.2).u = s.u ∧ (s.deviceReadData.2).sp = s.sp ∧
    (s.deviceReadData.2).pc = s.pc ∧ (s.deviceReadData.2).dp = s.dp ∧ (s.deviceReadData.2).cc = s.cc ∧
    (s.deviceReadData.2).mem = s.mem ∧ (s.deviceReadData.2).runState = s.runState ∧
    (s.deviceReadData.2).irqPending = s.irqPending ∧ (s.deviceReadData.2).breakpoints = s.breakpoints ∧
    (s.deviceReadData.2).instrCount = s.instrCount ∧ (s.deviceReadData.2).lastEa = s.lastEa ∧
    (s.deviceReadData.2).lastPostbyte = s.lastPostbyte ∧ (s.deviceReadData.2).faultRecord = s.faultRecord ∧
    (s.deviceReadData.2).kbdBuffer = s.kbdBuffer ∧ (s.deviceReadData.2).freeCount = s.freeCount ∧
    (s.deviceReadData.2).params = s.params :=
  ⟨rfl, rfl, rfl, rfl, rfl, rfl, rfl, rfl, rfl, rfl, rfl, rfl, rfl, rfl, rfl, rfl, rfl, rfl, rfl, rfl⟩

@[simp] theorem memRead_keeps (s : State) (addr : Word) :
    ((s.memRead addr).2).a = s.a ∧ ((s.memRead addr).2).b = s.b ∧ ((s.memRead addr).2).x = s.x ∧
    ((s.memRead addr).2).y = s.y ∧ ((s.memRead addr).2).u = s.u ∧ ((s.memRead addr).2).sp = s.sp ∧
    ((s.memRead addr).2).pc = s.pc ∧ ((s.memRead addr).2).dp = s.dp ∧ ((s.memRead addr).2).cc = s.cc ∧
    ((s.memRead addr).2).mem = s.mem ∧ ((s.memRead addr).2).runState = s.runState ∧
    ((s.memRead addr).2).irqPending = s.irqPending ∧ ((s.memRead addr).2).breakpoints = s.breakpoints ∧
    ((s.memRead addr).2).instrCount = s.instrCount ∧ ((s.memRead addr).2).lastEa = s.lastEa ∧
    ((s.memRead addr).2).lastPostbyte = s.lastPostbyte ∧ ((s.memRead addr).2).faultRecord = s.faultRecord ∧
    ((s.memRead addr).2).kbdBuffer = s.kbdBuffer ∧ ((s.memRead addr).2).freeCount = s.freeCount ∧
    ((s.memRead addr).2).params = s.params :=
  by
    unfold State.memRead
    split
    · split
      · simp
      · split <;> simp
    · simp

@[simp] theorem memReadWord_keeps (s : State) (addr : Word) :
    ((s.memReadWord addr).2).a = s.a ∧ ((s.memReadWord addr).2).b = s.b ∧ ((s.memReadWord addr).2).x = s.x ∧
    ((s.memReadWord addr).2).y = s.y ∧ ((s.memReadWord addr).2).u = s.u ∧ ((s.memReadWord addr).2).sp = s.sp ∧
    ((s.memReadWord addr).2).pc = s.pc ∧ ((s.memReadWord addr).2).dp = s.dp ∧
    ((s.memReadWord addr).2).cc = s.cc ∧ ((s.memReadWord addr).2).mem = s.mem ∧
    ((s.memReadWord addr).2).runState = s.runState ∧ ((s.memReadWord addr).2).irqPending = s.irqPending ∧
    ((s.memReadWord addr).2).breakpoints = s.breakpoints ∧ ((s.memReadWord addr).2).instrCount = s.instrCount ∧
    ((s.memReadWord addr).2).lastEa = s.lastEa ∧ ((s.memReadWord addr).2).lastPostbyte = s.lastPostbyte ∧
    ((s.memReadWord addr).2).faultRecord = s.faultRecord ∧ ((s.memReadWord addr).2).kbdBuffer = s.kbdBuffer ∧
    ((s.memReadWord addr).2).freeCount = s.freeCount ∧ ((s.memReadWord addr).2).params = s.params :=
  by simp [State.memReadWord]

@[simp] theorem setD_keeps (s : State) (v : Word) :
    (s.setD v).x = s.x ∧ (s.setD v).y = s.y ∧ (s.setD v).u = s.u ∧ (s.setD v).sp = s.sp ∧
    (s.setD v).pc = s.pc ∧ (s.setD v).dp = s.dp ∧ (s.setD v).cc = s.cc ∧ (s.setD v).mem = s.mem ∧
    (s.setD v).runState = s.runState ∧ (s.setD v).irqPending = s.irqPending ∧
    (s.setD v).breakpoints = s.breakpoints ∧ (s.setD v).instrCount = s.instrCount ∧
    (s.setD v).lastEa = s.lastEa ∧ (s.setD v).lastPostbyte = s.lastPostbyte ∧
    (s.setD v).faultRecord = s.faultRecord ∧ (s.setD v).kbdBuffer = s.kbdBuffer ∧
    (s.setD v).kbdPending = s.kbdPending ∧ (s.setD v).freeCount = s.freeCount ∧ (s.setD v).params = s.params :=
  ⟨rfl, rfl, rfl, rfl, rfl, rfl, rfl, rfl, rfl, rfl, rfl, rfl, rfl, rfl, rfl, rfl, rfl, rfl, rfl⟩

/-! ### Fetch and stack -/

@[simp] theorem fetchByte_keeps (s : State) :
    (s.fetchByte.2).a = s.a ∧ (s.fetchByte.2).b = s.b ∧ (s.fetchByte.2).x = s.x ∧ (s.fetchByte.2).y = s.y ∧
    (s.fetchByte.2).u = s.u ∧ (s.fetchByte.2).sp = s.sp ∧ (s.fetchByte.2).dp = s.dp ∧
    (s.fetchByte.2).cc = s.cc ∧ (s.fetchByte.2).mem = s.mem ∧ (s.fetchByte.2).runState = s.runState ∧
    (s.fetchByte.2).irqPending = s.irqPending ∧ (s.fetchByte.2).breakpoints = s.breakpoints ∧
    (s.fetchByte.2).instrCount = s.instrCount ∧ (s.fetchByte.2).lastEa = s.lastEa ∧
    (s.fetchByte.2).lastPostbyte = s.lastPostbyte ∧ (s.fetchByte.2).faultRecord = s.faultRecord ∧
    (s.fetchByte.2).kbdBuffer = s.kbdBuffer ∧ (s.fetchByte.2).kbdPending = s.kbdPending ∧
    (s.fetchByte.2).freeCount = s.freeCount ∧ (s.fetchByte.2).params = s.params :=
  ⟨rfl, rfl, rfl, rfl, rfl, rfl, rfl, rfl, rfl, rfl, rfl, rfl, rfl, rfl, rfl, rfl, rfl, rfl, rfl, rfl⟩

@[simp] theorem fetchWord_keeps (s : State) :
    (s.fetchWord.2).a = s.a ∧ (s.fetchWord.2).b = s.b ∧ (s.fetchWord.2).x = s.x ∧ (s.fetchWord.2).y = s.y ∧
    (s.fetchWord.2).u = s.u ∧ (s.fetchWord.2).sp = s.sp ∧ (s.fetchWord.2).dp = s.dp ∧
    (s.fetchWord.2).cc = s.cc ∧ (s.fetchWord.2).mem = s.mem ∧ (s.fetchWord.2).runState = s.runState ∧
    (s.fetchWord.2).irqPending = s.irqPending ∧ (s.fetchWord.2).breakpoints = s.breakpoints ∧
    (s.fetchWord.2).instrCount = s.instrCount ∧ (s.fetchWord.2).lastEa = s.lastEa ∧
    (s.fetchWord.2).lastPostbyte = s.lastPostbyte ∧ (s.fetchWord.2).faultRecord = s.faultRecord ∧
    (s.fetchWord.2).kbdBuffer = s.kbdBuffer ∧ (s.fetchWord.2).kbdPending = s.kbdPending ∧
    (s.fetchWord.2).freeCount = s.freeCount ∧ (s.fetchWord.2).params = s.params :=
  ⟨rfl, rfl, rfl, rfl, rfl, rfl, rfl, rfl, rfl, rfl, rfl, rfl, rfl, rfl, rfl, rfl, rfl, rfl, rfl, rfl⟩

@[simp] theorem pushByte_keeps (s : State) (v : Byte) :
    (s.pushByte v).a = s.a ∧ (s.pushByte v).b = s.b ∧ (s.pushByte v).x = s.x ∧ (s.pushByte v).y = s.y ∧
    (s.pushByte v).u = s.u ∧ (s.pushByte v).pc = s.pc ∧ (s.pushByte v).dp = s.dp ∧ (s.pushByte v).cc = s.cc ∧
    (s.pushByte v).runState = s.runState ∧ (s.pushByte v).irqPending = s.irqPending ∧
    (s.pushByte v).breakpoints = s.breakpoints ∧ (s.pushByte v).instrCount = s.instrCount ∧
    (s.pushByte v).lastEa = s.lastEa ∧ (s.pushByte v).lastPostbyte = s.lastPostbyte ∧
    (s.pushByte v).faultRecord = s.faultRecord ∧ (s.pushByte v).kbdBuffer = s.kbdBuffer ∧
    (s.pushByte v).kbdPending = s.kbdPending ∧ (s.pushByte v).freeCount = s.freeCount ∧
    (s.pushByte v).params = s.params :=
  ⟨rfl, rfl, rfl, rfl, rfl, rfl, rfl, rfl, rfl, rfl, rfl, rfl, rfl, rfl, rfl, rfl, rfl, rfl, rfl⟩

@[simp] theorem pushWord_keeps (s : State) (v : Word) :
    (s.pushWord v).a = s.a ∧ (s.pushWord v).b = s.b ∧ (s.pushWord v).x = s.x ∧ (s.pushWord v).y = s.y ∧
    (s.pushWord v).u = s.u ∧ (s.pushWord v).pc = s.pc ∧ (s.pushWord v).dp = s.dp ∧ (s.pushWord v).cc = s.cc ∧
    (s.pushWord v).runState = s.runState ∧ (s.pushWord v).irqPending = s.irqPending ∧
    (s.pushWord v).breakpoints = s.breakpoints ∧ (s.pushWord v).instrCount = s.instrCount ∧
    (s.pushWord v).lastEa = s.lastEa ∧ (s.pushWord v).lastPostbyte = s.lastPostbyte ∧
    (s.pushWord v).faultRecord = s.faultRecord ∧ (s.pushWord v).kbdBuffer = s.kbdBuffer ∧
    (s.pushWord v).kbdPending = s.kbdPending ∧ (s.pushWord v).freeCount = s.freeCount ∧
    (s.pushWord v).params = s.params :=
  ⟨rfl, rfl, rfl, rfl, rfl, rfl, rfl, rfl, rfl, rfl, rfl, rfl, rfl, rfl, rfl, rfl, rfl, rfl, rfl⟩

@[simp] theorem popByte_keeps (s : State) :
    (s.popByte.2).a = s.a ∧ (s.popByte.2).b = s.b ∧ (s.popByte.2).x = s.x ∧ (s.popByte.2).y = s.y ∧
    (s.popByte.2).u = s.u ∧ (s.popByte.2).pc = s.pc ∧ (s.popByte.2).dp = s.dp ∧ (s.popByte.2).cc = s.cc ∧
    (s.popByte.2).mem = s.mem ∧ (s.popByte.2).runState = s.runState ∧ (s.popByte.2).irqPending = s.irqPending ∧
    (s.popByte.2).breakpoints = s.breakpoints ∧ (s.popByte.2).instrCount = s.instrCount ∧
    (s.popByte.2).lastEa = s.lastEa ∧ (s.popByte.2).lastPostbyte = s.lastPostbyte ∧
    (s.popByte.2).faultRecord = s.faultRecord ∧ (s.popByte.2).kbdBuffer = s.kbdBuffer ∧
    (s.popByte.2).freeCount = s.freeCount ∧ (s.popByte.2).params = s.params :=
  by simp [State.popByte]

@[simp] theorem popWord_keeps (s : State) :
    (s.popWord.2).a = s.a ∧ (s.popWord.2).b = s.b ∧ (s.popWord.2).x = s.x ∧ (s.popWord.2).y = s.y ∧
    (s.popWord.2).u = s.u ∧ (s.popWord.2).pc = s.pc ∧ (s.popWord.2).dp = s.dp ∧ (s.popWord.2).cc = s.cc ∧
    (s.popWord.2).mem = s.mem ∧ (s.popWord.2).runState = s.runState ∧ (s.popWord.2).irqPending = s.irqPending ∧
    (s.popWord.2).breakpoints = s.breakpoints ∧ (s.popWord.2).instrCount = s.instrCount ∧
    (s.popWord.2).lastEa = s.lastEa ∧ (s.popWord.2).lastPostbyte = s.lastPostbyte ∧
    (s.popWord.2).faultRecord = s.faultRecord ∧ (s.popWord.2).kbdBuffer = s.kbdBuffer ∧
    (s.popWord.2).freeCount = s.freeCount ∧ (s.popWord.2).params = s.params :=
  by simp [State.popWord]

/-! ### Exceptions, sequencing, operands -/

@[simp] theorem raiseUnknownOpcode_keeps (s : State) (key : Key) (addr : Word) :
    (s.raiseUnknownOpcode key addr).a = s.a ∧ (s.raiseUnknownOpcode key addr).b = s.b ∧
    (s.raiseUnknownOpcode key addr).x = s.x ∧ (s.raiseUnknownOpcode key addr).y = s.y ∧
    (s.raiseUnknownOpcode key addr).u = s.u ∧ (s.raiseUnknownOpcode key addr).sp = s.sp ∧
    (s.raiseUnknownOpcode key addr).pc = s.pc ∧ (s.raiseUnknownOpcode key addr).dp = s.dp ∧
    (s.raiseUnknownOpcode key addr).cc = s.cc ∧ (s.raiseUnknownOpcode key addr).mem = s.mem ∧
    (s.raiseUnknownOpcode key addr).irqPending = s.irqPending ∧
    (s.raiseUnknownOpcode key addr).breakpoints = s.breakpoints ∧
    (s.raiseUnknownOpcode key addr).instrCount = s.instrCount ∧
    (s.raiseUnknownOpcode key addr).lastEa = s.lastEa ∧
    (s.raiseUnknownOpcode key addr).lastPostbyte = s.lastPostbyte ∧
    (s.raiseUnknownOpcode key addr).kbdBuffer = s.kbdBuffer ∧
    (s.raiseUnknownOpcode key addr).kbdPending = s.kbdPending ∧
    (s.raiseUnknownOpcode key addr).freeCount = s.freeCount ∧
    (s.raiseUnknownOpcode key addr).params = s.params :=
  ⟨rfl, rfl, rfl, rfl, rfl, rfl, rfl, rfl, rfl, rfl, rfl, rfl, rfl, rfl, rfl, rfl, rfl, rfl, rfl⟩

@[simp] theorem triggerIRQ_keeps (s : State) :
    (s.triggerIRQ).a = s.a ∧ (s.triggerIRQ).b = s.b ∧ (s.triggerIRQ).x = s.x ∧ (s.triggerIRQ).y = s.y ∧
    (s.triggerIRQ).u = s.u ∧ (s.triggerIRQ).sp = s.sp ∧ (s.triggerIRQ).pc = s.pc ∧ (s.triggerIRQ).dp = s.dp ∧
    (s.triggerIRQ).cc = s.cc ∧ (s.triggerIRQ).mem = s.mem ∧ (s.triggerIRQ).runState = s.runState ∧
    (s.triggerIRQ).breakpoints = s.breakpoints ∧ (s.triggerIRQ).instrCount = s.instrCount ∧
    (s.triggerIRQ).lastEa = s.lastEa ∧ (s.triggerIRQ).lastPostbyte = s.lastPostbyte ∧
    (s.triggerIRQ).faultRecord = s.faultRecord ∧ (s.triggerIRQ).kbdBuffer = s.kbdBuffer ∧
    (s.triggerIRQ).kbdPending = s.kbdPending ∧ (s.triggerIRQ).freeCount = s.freeCount ∧
    (s.triggerIRQ).params = s.params :=
  by unfold State.triggerIRQ; split <;> simp

@[simp] theorem clearIntrospection_keeps (s : State) :
    (s.clearIntrospection).a = s.a ∧ (s.clearIntrospection).b = s.b ∧ (s.clearIntrospection).x = s.x ∧
    (s.clearIntrospection).y = s.y ∧ (s.clearIntrospection).u = s.u ∧ (s.clearIntrospection).sp = s.sp ∧
    (s.clearIntrospection).pc = s.pc ∧ (s.clearIntrospection).dp = s.dp ∧ (s.clearIntrospection).cc = s.cc ∧
    (s.clearIntrospection).mem = s.mem ∧ (s.clearIntrospection).runState = s.runState ∧
    (s.clearIntrospection).irqPending = s.irqPending ∧ (s.clearIntrospection).breakpoints = s.breakpoints ∧
    (s.clearIntrospection).instrCount = s.instrCount ∧ (s.clearIntrospection).faultRecord = s.faultRecord ∧
    (s.clearIntrospection).kbdBuffer = s.kbdBuffer ∧ (s.clearIntrospection).kbdPending = s.kbdPending ∧
    (s.clearIntrospection).freeCount = s.freeCount ∧ (s.clearIntrospection).params = s.params :=
  ⟨rfl, rfl, rfl, rfl, rfl, rfl, rfl, rfl, rfl, rfl, rfl, rfl, rfl, rfl, rfl, rfl, rfl, rfl, rfl⟩

@[simp] theorem countInstruction_keeps (s : State) :
    (s.countInstruction).a = s.a ∧ (s.countInstruction).b = s.b ∧ (s.countInstruction).x = s.x ∧
    (s.countInstruction).y = s.y ∧ (s.countInstruction).u = s.u ∧ (s.countInstruction).sp = s.sp ∧
    (s.countInstruction).pc = s.pc ∧ (s.countInstruction).dp = s.dp ∧ (s.countInstruction).cc = s.cc ∧
    (s.countInstruction).mem = s.mem ∧ (s.countInstruction).runState = s.runState ∧
    (s.countInstruction).irqPending = s.irqPending ∧ (s.countInstruction).breakpoints = s.breakpoints ∧
    (s.countInstruction).lastEa = s.lastEa ∧ (s.countInstruction).lastPostbyte = s.lastPostbyte ∧
    (s.countInstruction).faultRecord = s.faultRecord ∧ (s.countInstruction).kbdBuffer = s.kbdBuffer ∧
    (s.countInstruction).kbdPending = s.kbdPending ∧ (s.countInstruction).freeCount = s.freeCount ∧
    (s.countInstruction).params = s.params :=
  ⟨rfl, rfl, rfl, rfl, rfl, rfl, rfl, rfl, rfl, rfl, rfl, rfl, rfl, rfl, rfl, rfl, rfl, rfl, rfl, rfl⟩

@[simp] theorem recordIndexed_keeps (s : State) (off : Byte) :
    (s.recordIndexed off).a = s.a ∧ (s.recordIndexed off).b = s.b ∧ (s.recordIndexed off).x = s.x ∧
    (s.recordIndexed off).y = s.y ∧ (s.recordIndexed off).u = s.u ∧ (s.recordIndexed off).sp = s.sp ∧
    (s.recordIndexed off).pc = s.pc ∧ (s.recordIndexed off).dp = s.dp ∧ (s.recordIndexed off).cc = s.cc ∧
    (s.recordIndexed off).mem = s.mem ∧ (s.recordIndexed off).runState = s.runState ∧
    (s.recordIndexed off).irqPending = s.irqPending ∧ (s.recordIndexed off).breakpoints = s.breakpoints ∧
    (s.recordIndexed off).instrCount = s.instrCount ∧ (s.recordIndexed off).faultRecord = s.faultRecord ∧
    (s.recordIndexed off).kbdBuffer = s.kbdBuffer ∧ (s.recordIndexed off).kbdPending = s.kbdPending ∧
    (s.recordIndexed off).freeCount = s.freeCount ∧ (s.recordIndexed off).params = s.params :=
  ⟨rfl, rfl, rfl, rfl, rfl, rfl, rfl, rfl, rfl, rfl, rfl, rfl, rfl, rfl, rfl, rfl, rfl, rfl, rfl⟩

@[simp] theorem readyToFetch_keeps (s : State) :
    (s.readyToFetch).a = s.a ∧ (s.readyToFetch).b = s.b ∧ (s.readyToFetch).x = s.x ∧ (s.readyToFetch).y = s.y ∧
    (s.readyToFetch).u = s.u ∧ (s.readyToFetch).sp = s.sp ∧ (s.readyToFetch).pc = s.pc ∧
    (s.readyToFetch).dp = s.dp ∧ (s.readyToFetch).cc = s.cc ∧ (s.readyToFetch).mem = s.mem ∧
    (s.readyToFetch).instrCount = s.instrCount ∧ (s.readyToFetch).lastEa = s.lastEa ∧
    (s.readyToFetch).lastPostbyte = s.lastPostbyte ∧ (s.readyToFetch).faultRecord = s.faultRecord ∧
    (s.readyToFetch).kbdBuffer = s.kbdBuffer ∧ (s.readyToFetch).kbdPending = s.kbdPending ∧
    (s.readyToFetch).freeCount = s.freeCount ∧ (s.readyToFetch).params = s.params :=
  ⟨rfl, rfl, rfl, rfl, rfl, rfl, rfl, rfl, rfl, rfl, rfl, rfl, rfl, rfl, rfl, rfl, rfl, rfl⟩

end Sys2Proof.Machine
end

