-- ==== Sys2Proof/Laws/Accessor.lean ====
section
/-! SUPPORT. The core's accessor over a run of addresses (20_memory.md R42 to R44): a chain of accessor reads gives the
bytes `accessorByte` and leaves the pending bit `pendingAfter`, whatever else the state holds. -/

namespace Sys2Proof.Machine

@[simp] theorem offsetAddr_zero (base : Word) : offsetAddr base 0 = base := by simp [offsetAddr]

theorem offsetAddr_succ (base : Word) (k : Nat) : offsetAddr base k + 1#16 = offsetAddr base (k + 1) := by
  simp [offsetAddr, BitVec.ofNat_add, BitVec.add_assoc]

/-- The addresses of a run shorter than the address space are distinct. -/
theorem offsetAddr_inj (base : Word) {j k : Nat} (hj : j < 65536) (hk : k < 65536)
    (h : offsetAddr base j = offsetAddr base k) : j = k := by
  have := congrArg BitVec.toNat (add_left_cancel (a := base) h)
  simpa [Nat.mod_eq_of_lt hj, Nat.mod_eq_of_lt hk] using this

@[simp] theorem pendingAfter_zero (s : State) (base : Word) : s.pendingAfter base 0 = s.kbdPending := by
  unfold State.pendingAfter; split <;> simp

/-- `t` is what `s` is to the accessor after it has read `k` bytes from `base` upward. -/
structure ReadSoFar (s t : State) (base : Word) (k : Nat) : Prop where
  params : t.params = s.params
  mem : t.mem = s.mem
  kbdBuffer : t.kbdBuffer = s.kbdBuffer
  kbdPending : t.kbdPending = s.pendingAfter base k

theorem ReadSoFar.start (s : State) (base : Word) : ReadSoFar s s base 0 := ⟨rfl, rfl, rfl, by simp⟩

/-- One more accessor read. -/
theorem ReadSoFar.memRead {s t : State} {base : Word} {k : Nat} (h : ReadSoFar s t base k) :
    t.memRead (offsetAddr base k) =
      (s.accessorByte base k, { t with kbdPending := s.pendingAfter base (k + 1) }) := by
  obtain ⟨hp, hm, hb, hk⟩ := h
  unfold State.memRead State.accessorByte
  rw [show t.params.kbd = s.params.kbd by rw [hp]]
  have hself : ∀ v, v = t.kbdPending → t = { t with kbdPending := v } := by rintro _ rfl; rfl
  cases hkbd : s.params.kbd with
  | none =>
    exact Prod.ext (by simp [State.rawRead, hm]) (hself _ (by simp [hk, State.pendingAfter, hkbd]))
  | some ports =>
    simp only []
    split
    · rename_i ha
      simp [State.deviceReadData, hb, State.pendingAfter, hkbd, List.range_succ, ha]
    · rename_i ha
      have hne : (offsetAddr base k != ports.dataAddr) = true := by simpa using ha
      have hsucc : s.pendingAfter base (k + 1) = t.kbdPending := by
        simp [hk, State.pendingAfter, hkbd, List.range_succ, hne]
      split
      · exact Prod.ext (by simp [State.deviceReadStatus, hk]) (hself _ hsucc)
      · exact Prod.ext (by simp [State.rawRead, hm]) (hself _ hsucc)

/-- A single accessor read (R42). -/
theorem memRead_eq (s : State) (addr : Word) :
    s.memRead addr = (s.accessorByte addr 0, { s with kbdPending := s.pendingAfter addr 1 }) := by
  simpa using (ReadSoFar.start s addr).memRead

/-- A word read (R44). -/
theorem memReadWord_eq (s : State) (addr : Word) :
    s.memReadWord addr = (s.accessorByte addr 0 ++ s.accessorByte addr 1,
      { s with kbdPending := s.pendingAfter addr 2 }) := by
  have h1 : ReadSoFar s { s with kbdPending := s.pendingAfter addr 1 } addr 1 := ⟨rfl, rfl, rfl, rfl⟩
  have h2 := h1.memRead
  simp only [State.memReadWord, memRead_eq s]
  rw [show addr + 1#16 = offsetAddr addr 1 by simp [offsetAddr], h2]

/-- Away from the ports the accessor gives the array's bytes and leaves the device alone (R42). -/
theorem accessorByte_of_noPort {s : State} {base : Word} {n k : Nat} (h : s.noPortIn base n) (hk : k < n) :
    s.accessorByte base k = s.rawRead (offsetAddr base k) := by
  unfold State.accessorByte
  split
  · rename_i ports hp
    simp [(h ports hp k hk).1, (h ports hp k hk).2]
  · rfl

theorem pendingAfter_of_noPort {s : State} {base : Word} {n : Nat} (h : s.noPortIn base n) :
    s.pendingAfter base n = s.kbdPending := by
  unfold State.pendingAfter
  split
  · rename_i ports hp
    have : ((List.range n).all fun j => offsetAddr base j != ports.dataAddr) = true := by
      simp only [List.all_eq_true, List.mem_range, bne_iff_ne]
      exact fun j hj => (h ports hp j hj).1
    simp [this]
  · rfl

end Sys2Proof.Machine
end

