-- ==== Sys2Proof/Laws/Decode.lean ====
section
/-! SUPPORT. The decoder's tables: register codes and their nibbles, the keys of the opcode table, and what a lookup can
give (30_encoding.md R61 to R66, 44_stack_regmove.md R159). -/

namespace Sys2Proof

/-! ### Register codes -/

theorem RegCode.toNibble_ofNibble (c : BitVec 4) : (RegCode.ofNibble c).toNibble = c := by
  revert c; decide

theorem RegCode.ofNibble_wf (c : BitVec 4) : (RegCode.ofNibble c).wf = true := by
  revert c; decide

theorem RegCode.ofNibble_toNibble (r : RegCode) (h : r.wf = true) : RegCode.ofNibble r.toNibble = r := by
  cases r with
  | unmapped c => revert c; decide
  | _ => rfl

theorem postbyteR1_postbyteOf (r1 r2 : RegCode) (h : r1.wf = true) : postbyteR1 (postbyteOf r1 r2) = r1 := by
  have : (postbyteOf r1 r2).extractLsb' 4 4 = r1.toNibble :=
    (by decide : ∀ p q : BitVec 4, (p ++ q : BitVec 8).extractLsb' 4 4 = p) _ _
  rw [postbyteR1, this, RegCode.ofNibble_toNibble r1 h]

theorem postbyteR2_postbyteOf (r1 r2 : RegCode) (h : r2.wf = true) : postbyteR2 (postbyteOf r1 r2) = r2 := by
  have : (postbyteOf r1 r2).extractLsb' 0 4 = r2.toNibble :=
    (by decide : ∀ p q : BitVec 4, (p ++ q : BitVec 8).extractLsb' 0 4 = q) _ _
  rw [postbyteR2, this, RegCode.ofNibble_toNibble r2 h]

theorem postbyteOf_postbyte (pb : Byte) : postbyteOf (postbyteR1 pb) (postbyteR2 pb) = pb := by
  rw [postbyteOf, postbyteR1, postbyteR2, RegCode.toNibble_ofNibble, RegCode.toNibble_ofNibble]
  revert pb; decide

/-! ### The table -/

/-- Each key is mapped to at most one entry (R65). -/
theorem mappedKeys_nodup : mappedKeys.Nodup := by decide

/-- Every mapped key is one opcode byte, and no escape prefix (R64, R66). -/
theorem mappedKeys_byte : ∀ k ∈ mappedKeys, k.toNat < 256 ∧ k.toNat ≠ 0x10 ∧ k.toNat ≠ 0x11 := by
  simp [mappedKeys, opcodeTable, opcodeTableSystem, opcodeTableAccumulator, opcodeTableB]

/-- A lookup that succeeds gives a row of the table. -/
theorem mem_of_lookupKey {k : Key} {e : TableEntry} (h : lookupKey k = some e) : (k, e) ∈ opcodeTable := by
  have : ∀ l : List (Key × TableEntry), l.lookup k = some e → (k, e) ∈ l := by
    intro l
    induction l with
    | nil => simp
    | cons p l ih =>
      obtain ⟨k', e'⟩ := p
      by_cases hk : k = k'
      · subst hk; simp +contextual
      · have hk' : (k == k') = false := by simpa using hk
        simp [List.lookup, hk']
        exact fun h => .inr (ih h)
  exact this _ h

/-- A key that is no opcode byte is unmapped (R66). -/
theorem lookupKey_of_le {k : Key} (h : 256 ≤ k.toNat) : lookupKey k = none := by
  cases he : lookupKey k with
  | none => rfl
  | some e =>
    have := mappedKeys_byte k (List.mem_map_of_mem (f := Prod.fst) (mem_of_lookupKey he))
    omega

theorem byteKey_toNat (op : Byte) : (byteKey op).toNat = op.toNat := by
  have := op.isLt
  simp [byteKey]; omega

theorem escapedKey_toNat (op op2 : Byte) : (escapedKey op op2).toNat = op.toNat * 256 + op2.toNat := by
  refine (BitVec.toNat_append op op2).trans ?_
  rw [← Nat.shiftLeft_add_eq_or_of_lt op2.isLt, Nat.shiftLeft_eq]

theorem isEscape_iff (op : Byte) : isEscape op = true ↔ op = 0x10#8 ∨ op = 0x11#8 := by
  simp [isEscape, Config.escapes]

/-- No prefixed key is mapped (R66). -/
theorem lookupKey_escaped (op op2 : Byte) (h : isEscape op = true) : lookupKey (escapedKey op op2) = none := by
  apply lookupKey_of_le
  rw [escapedKey_toNat]
  obtain rfl | rfl := (isEscape_iff op).1 h <;> simp <;> omega

/-! ### Decoding two bytes -/

/-- Decoding the bytes at PC: an escaped key is always unmapped; a byte key is looked up, and a second byte is there for
it (R62, R66). -/
theorem decode_pair (op op2 : Byte) :
    decode [op, op2] =
      if isEscape op then .error (.unknownOpcode (escapedKey op op2))
      else match lookupKey (byteKey op) with
        | none => .error (.unknownOpcode (byteKey op))
        | some (.inherent i) => .ok (i, [op2])
        | some (.withByte make) => .ok (make op2, []) := by
  simp only [decode]
  split
  · rename_i h; simp [decodeKey, lookupKey_escaped op op2 h]
  · cases hl : lookupKey (byteKey op) with
    | none => simp [decodeKey, hl]
    | some e => cases e <;> simp [decodeKey, hl]

end Sys2Proof
end

