-- ==== Sys2Proof/Laws/Flags.lean ====
section
/-! SUPPORT. The condition codes bit by bit (10_state.md R13, R14), and what each flag algorithm leaves in CC. -/

namespace Sys2Proof.Machine

/-- The number of each bit of CC (R13). -/
def Flag.index : Flag → Nat
  | .e => 7 | .f => 6 | .h => 5 | .i => 4 | .n => 3 | .z => 2 | .v => 1 | .c => 0

/-- A flag is a bit of CC. -/
theorem ccGet_eq_bit (cc : Byte) (bit : Flag) : ccGet cc bit = cc.getLsbD bit.index := by
  revert cc; cases bit <;> decide

/-- Setting one flag and reading any (R14). -/
@[simp] theorem ccGet_ccSet (cc : Byte) (bit other : Flag) (v : Bool) :
    ccGet (ccSet cc bit v) other = if other = bit then v else ccGet cc other := by
  rw [ccGet_eq_bit, ccGet_eq_bit]
  cases v <;> cases bit <;> cases other <;> simp [ccSet, Flag.mask, Flag.index]

/-- Two CC values with the same eight flags are equal. -/
theorem cc_ext {p q : Byte} (h : ∀ bit, ccGet p bit = ccGet q bit) : p = q := by
  have h' : ∀ bit : Flag, p.getLsbD bit.index = q.getLsbD bit.index := fun bit => by
    rw [← ccGet_eq_bit, ← ccGet_eq_bit, h]
  refine BitVec.eq_of_getLsbD_eq fun n hn => ?_
  match n, hn with
  | 0, _ => exact h' .c
  | 1, _ => exact h' .v
  | 2, _ => exact h' .z
  | 3, _ => exact h' .n
  | 4, _ => exact h' .i
  | 5, _ => exact h' .h
  | 6, _ => exact h' .f
  | 7, _ => exact h' .e

/-- What `setFlag` leaves in CC. -/
@[simp] theorem setFlag_cc (s : State) (bit : Flag) (v : Bool) :
    (s.setFlag bit v).cc = ccSet s.cc bit v := rfl

/-- N and Z after `SetNZ8`, the other flags kept (R100). -/
@[simp] theorem ccGet_ccNZ8 (cc m : Byte) (bit : Flag) :
    ccGet (ccNZ8 cc m) bit =
      if bit = .z then m == 0#8 else if bit = .n then m.getLsbD 7 else ccGet cc bit := by
  simp [ccNZ8]

/-- N and Z after `SetNZ16`, the other flags kept (R101). -/
@[simp] theorem ccGet_ccNZ16 (cc : Byte) (m : Word) (bit : Flag) :
    ccGet (ccNZ16 cc m) bit =
      if bit = .z then m == 0#16 else if bit = .n then m.getLsbD 15 else ccGet cc bit := by
  simp [ccNZ16]

/-- H, V and C after `AddFlags8`, the other flags kept (R102). -/
@[simp] theorem ccGet_ccAdd8 (cc p q : Byte) (r : BitVec 9) (bit : Flag) :
    ccGet (ccAdd8 cc p q r) bit =
      if bit = .h then p.getLsbD 4 ^^ q.getLsbD 4 ^^ r.getLsbD 4
      else if bit = .v then p.getLsbD 7 == q.getLsbD 7 && r.getLsbD 7 != p.getLsbD 7
      else if bit = .c then r.getLsbD 8 else ccGet cc bit := by
  simp [ccAdd8]

/-- V and C after `SubFlags8`, the other flags kept (R103). -/
@[simp] theorem ccGet_ccSub8 (cc p q : Byte) (r : BitVec 9) (bit : Flag) :
    ccGet (ccSub8 cc p q r) bit =
      if bit = .v then p.getLsbD 7 != q.getLsbD 7 && r.getLsbD 7 != p.getLsbD 7
      else if bit = .c then r.getLsbD 8 else ccGet cc bit := by
  simp [ccSub8]

/-! ### What each algorithm leaves in CC -/

@[simp] theorem setNZ8_cc (s : State) (m : Byte) : (s.setNZ8 m).cc = ccNZ8 s.cc m := rfl

@[simp] theorem setNZ16_cc (s : State) (m : Word) : (s.setNZ16 m).cc = ccNZ16 s.cc m := rfl

@[simp] theorem addFlags8_cc (s : State) (p q : Byte) (r : BitVec 9) :
    (s.addFlags8 p q r).cc = ccAdd8 s.cc p q r := rfl

@[simp] theorem subFlags8_cc (s : State) (p q : Byte) (r : BitVec 9) :
    (s.subFlags8 p q r).cc = ccSub8 s.cc p q r := rfl

/-! ### The bits of the 9-bit sum and difference, as arithmetic (R102, R103) -/

/-- Bit 7 of a byte is set from 128 upward. -/
theorem bit7_iff (m : Byte) : m.getLsbD 7 = decide (128 ≤ m.toNat) := by
  revert m; decide

/-- Bit 15 of a word is set from 32768 upward. -/
theorem bit15_iff (m : Word) : m.getLsbD 15 = decide (32768 ≤ m.toNat) := by
  rw [show m.getLsbD 15 = m.msb by simp [BitVec.msb, BitVec.getMsbD], BitVec.msb_eq_decide]

/-- The 9-bit sum is the sum (R102). -/
theorem sum9_toNat (p q : Byte) : (sum9 p q).toNat = p.toNat + q.toNat := by
  have := p.isLt; have := q.isLt
  simp [sum9, BitVec.toNat_add]; omega

/-- The 9-bit difference is the difference modulo 512 (R103). -/
theorem diff9_toNat (p q : Byte) : (diff9 p q).toNat = (p.toNat + 512 - q.toNat) % 512 := by
  have := p.isLt; have := q.isLt
  simp [diff9, BitVec.toNat_sub]; omega

/-- The stored sum is the sum modulo 256 (R107). -/
theorem sum9_low (p q : Byte) : (sum9 p q).setWidth 8 = p + q := by
  apply BitVec.eq_of_toNat_eq
  simp [sum9_toNat, BitVec.toNat_add]

/-- The stored difference is the difference modulo 256 (R109). -/
theorem diff9_low (p q : Byte) : (diff9 p q).setWidth 8 = p - q := by
  have := p.isLt; have := q.isLt
  apply BitVec.eq_of_toNat_eq
  simp [diff9_toNat, BitVec.toNat_sub]; omega

end Sys2Proof.Machine
end

