-- ==== Sys2Proof/Laws/Host.lean ====
section
/-! SUPPORT. The host's transactions: bytes stored from a base address, the breakpoint list, the interrupt request and the
arrival of an input byte (20_memory.md R56; 60_exceptions.md R182, R197, R200). -/

namespace Sys2Proof.Machine

/-! ### Bytes stored from an address upward (R56) -/

theorem offsetAddr_next (base : Word) (k : Nat) : offsetAddr (base + 1#16) k = offsetAddr base (k + 1) := by
  simp only [offsetAddr, BitVec.ofNat_add]; ring

theorem storeBytes_wf (bytes : List Byte) : ∀ (s : State) (base : Word), Memory.wf s.mem →
    Memory.wf (s.storeBytes base bytes).mem := by
  induction bytes with
  | nil => exact fun _ _ h => h
  | cons b rest ih => exact fun s base h => ih _ _ (rawWrite_wf s _ _ h)

/-- Storing bytes changes memory only. -/
theorem storeBytes_same (bytes : List Byte) : ∀ (s : State) (base : Word),
    s.storeBytes base bytes = { s with mem := (s.storeBytes base bytes).mem } := by
  induction bytes with
  | nil => exact fun _ _ => rfl
  | cons b rest ih => intro s base; simp only [State.storeBytes]; rw [ih]; rfl

theorem storeBytes_other (bytes : List Byte) : ∀ (s : State) (base other : Word),
    (∀ k, k < bytes.length → other ≠ offsetAddr base k) → (s.storeBytes base bytes).rawRead other = s.rawRead other := by
  induction bytes with
  | nil => exact fun _ _ _ _ => rfl
  | cons b rest ih =>
    intro s base other h
    simp only [State.storeBytes]
    rw [ih, rawRead_rawWrite_other]
    · simpa using h 0 (by simp)
    · intro k hk
      rw [offsetAddr_next]
      exact h (k + 1) (by simpa using hk)

/-- The k-th byte stored, as long as the bytes fit the address space. -/
theorem storeBytes_at (bytes : List Byte) : ∀ (s : State) (base : Word), Memory.wf s.mem → bytes.length ≤ 65536 →
    ∀ k (h : k < bytes.length), (s.storeBytes base bytes).rawRead (offsetAddr base k) = bytes[k] := by
  induction bytes with
  | nil => intro s base hw hl k h; simp at h
  | cons b rest ih =>
    intro s base hw hl k h
    have hl' : rest.length < 65536 := by simpa using hl
    simp only [State.storeBytes]
    cases k with
    | zero =>
      rw [storeBytes_other]
      · simp [rawRead_rawWrite _ _ _ _ hw]
      · intro k hk he
        rw [offsetAddr_next] at he
        have := offsetAddr_inj _ (by omega) (by omega) he
        omega
    | succ k =>
      rw [← offsetAddr_next, ih _ _ (rawWrite_wf s _ _ hw) (by omega) k (by simpa using h)]
      simp

/-- Host addresses a distance apart. -/
theorem offsetAddr_ofInt (base : Int) (k : Nat) :
    BitVec.ofInt 16 (base + k) = offsetAddr (BitVec.ofInt 16 base) k := by
  simp [offsetAddr, BitVec.ofInt_add]

/-- Host addresses are addresses modulo 65536 (R41). -/
theorem ofInt_eq_iff (a b : Int) : BitVec.ofInt 16 a = BitVec.ofInt 16 b ↔ a % 65536 = b % 65536 := by
  refine ⟨fun h => ?_, fun h => BitVec.eq_of_toNat_eq (by simp [BitVec.toNat_ofInt, h])⟩
  have := congrArg BitVec.toNat h
  simp [BitVec.toNat_ofInt] at this
  omega

/-! ### The breakpoint list (R21, R200) -/

theorem mem_insertAddr (a x : Word) (l : List Word) : x ∈ insertAddr a l ↔ x = a ∨ x ∈ l := by
  induction l with
  | nil => simp [insertAddr]
  | cons b rest ih =>
    unfold insertAddr
    split
    · simp
    · split
      · subst_vars; simp
      · simp only [List.mem_cons, ih]; tauto

theorem insertAddr_sorted (a : Word) (l : List Word) (h : l.Pairwise (· < ·)) :
    (insertAddr a l).Pairwise (· < ·) := by
  induction l with
  | nil => simp [insertAddr]
  | cons b rest ih =>
    obtain ⟨h1, h2⟩ := List.pairwise_cons.1 h
    unfold insertAddr
    split
    · rename_i hlt
      refine List.pairwise_cons.2 ⟨fun c hc => ?_, h⟩
      obtain rfl | hc := List.mem_cons.1 hc
      · exact hlt
      · have := h1 c hc
        simp only [BitVec.lt_def] at *; omega
    · split
      · exact h
      · rename_i hlt hne
        refine List.pairwise_cons.2 ⟨fun c hc => ?_, ih h2⟩
        obtain rfl | hc := (mem_insertAddr a c rest).1 hc
        · have hb : c.toNat ≠ b.toNat := fun h => hne (BitVec.eq_of_toNat_eq h)
          simp only [BitVec.lt_def] at *; omega
        · exact h1 c hc

/-- An address already there is not inserted again. -/
theorem insertAddr_present (a : Word) (l : List Word) (h : l.Pairwise (· < ·)) (ha : a ∈ l) : insertAddr a l = l := by
  induction l with
  | nil => cases ha
  | cons b rest ih =>
    obtain ⟨h1, h2⟩ := List.pairwise_cons.1 h
    unfold insertAddr
    obtain rfl | ha := List.mem_cons.1 ha
    · simp
    · have := h1 a ha
      rw [if_neg, if_neg, ih h2 ha]
      · rintro rfl; simp at this
      · simp only [BitVec.lt_def] at *; omega

/-! ### The interrupt request and the device (R182, R197) -/

/-- `triggerIRQ` as one field (R182). -/
theorem triggerIRQ_eq (s : State) : s.triggerIRQ = { s with irqPending := s.irqPending || !s.getFlag .i } := by
  unfold State.triggerIRQ
  cases s.getFlag .i <;> simp

/-- The arrival of a byte at an attached device (R197). -/
theorem inputArrival_attached (s : State) (k : Byte) {ports : KbdPorts} (h : s.params.kbd = some ports) :
    s.inputArrival k = ({ s with kbdBuffer := k, kbdPending := true }.publish ports).triggerIRQ := by
  simp [State.inputArrival, h]

end Sys2Proof.Machine
end

