-- ==== Sys2Proof/Laws/PerInstr.lean ====
section
/-! SUPPORT. Statements for all instructions, one lemma per constructor. -/

/-- Decoding the encoding of a well-formed instruction gives it back, whatever bytes follow (30_encoding.md R62 to R64). -/
def Sys2Proof.Laws.RoundTrip.Statement (i : Sys2Proof.Instr) : Prop :=
  i.wf = true → ∀ rest, Sys2Proof.decode (Sys2Proof.encode i ++ rest) = .ok (i, rest)

namespace Sys2Proof.Laws.RoundTrip

/-- The postbyte of two well-formed register codes decodes to them. -/
theorem of_postbyte {r1 r2 : RegCode} (h : (r1.wf && r2.wf) = true) :
    postbyteR1 (postbyteOf r1 r2) = r1 ∧ postbyteR2 (postbyteOf r1 r2) = r2 := by
  simp only [Bool.and_eq_true] at h
  exact ⟨postbyteR1_postbyteOf r1 r2 h.1, postbyteR2_postbyteOf r1 r2 h.2⟩

end Sys2Proof.Laws.RoundTrip

theorem Sys2Proof.Laws.RoundTrip.nop : Sys2Proof.Laws.RoundTrip.Statement .nop := fun _ _ => rfl

theorem Sys2Proof.Laws.RoundTrip.sync : Sys2Proof.Laws.RoundTrip.Statement .sync := fun _ _ => rfl

theorem Sys2Proof.Laws.RoundTrip.exg (r1 r2 : Sys2Proof.RegCode) :
    Sys2Proof.Laws.RoundTrip.Statement (.exg r1 r2) := fun h rest => by
  obtain ⟨h1, h2⟩ := Sys2Proof.Laws.RoundTrip.of_postbyte h
  refine (?_ : Sys2Proof.decode _ = .ok (.exg (Sys2Proof.postbyteR1 (Sys2Proof.postbyteOf r1 r2))
    (Sys2Proof.postbyteR2 (Sys2Proof.postbyteOf r1 r2)), rest)).trans (by rw [h1, h2])
  rfl

theorem Sys2Proof.Laws.RoundTrip.tfr (r1 r2 : Sys2Proof.RegCode) :
    Sys2Proof.Laws.RoundTrip.Statement (.tfr r1 r2) := fun h rest => by
  obtain ⟨h1, h2⟩ := Sys2Proof.Laws.RoundTrip.of_postbyte h
  refine (?_ : Sys2Proof.decode _ = .ok (.tfr (Sys2Proof.postbyteR1 (Sys2Proof.postbyteOf r1 r2))
    (Sys2Proof.postbyteR2 (Sys2Proof.postbyteOf r1 r2)), rest)).trans (by rw [h1, h2])
  rfl

theorem Sys2Proof.Laws.RoundTrip.bra (v : Sys2Proof.Byte) : Sys2Proof.Laws.RoundTrip.Statement (.bra v) :=
  fun _ _ => rfl

theorem Sys2Proof.Laws.RoundTrip.leax (v : Sys2Proof.Byte) : Sys2Proof.Laws.RoundTrip.Statement (.leax v) :=
  fun _ _ => rfl

theorem Sys2Proof.Laws.RoundTrip.pshs (v : Sys2Proof.Byte) : Sys2Proof.Laws.RoundTrip.Statement (.pshs v) :=
  fun _ _ => rfl

theorem Sys2Proof.Laws.RoundTrip.puls (v : Sys2Proof.Byte) : Sys2Proof.Laws.RoundTrip.Statement (.puls v) :=
  fun _ _ => rfl

theorem Sys2Proof.Laws.RoundTrip.rts : Sys2Proof.Laws.RoundTrip.Statement .rts := fun _ _ => rfl

theorem Sys2Proof.Laws.RoundTrip.rti : Sys2Proof.Laws.RoundTrip.Statement .rti := fun _ _ => rfl

theorem Sys2Proof.Laws.RoundTrip.mul : Sys2Proof.Laws.RoundTrip.Statement .mul := fun _ _ => rfl

theorem Sys2Proof.Laws.RoundTrip.deca : Sys2Proof.Laws.RoundTrip.Statement .deca := fun _ _ => rfl

theorem Sys2Proof.Laws.RoundTrip.inca : Sys2Proof.Laws.RoundTrip.Statement .inca := fun _ _ => rfl

theorem Sys2Proof.Laws.RoundTrip.decb : Sys2Proof.Laws.RoundTrip.Statement .decb := fun _ _ => rfl

theorem Sys2Proof.Laws.RoundTrip.incb : Sys2Proof.Laws.RoundTrip.Statement .incb := fun _ _ => rfl

theorem Sys2Proof.Laws.RoundTrip.suba (v : Sys2Proof.Byte) : Sys2Proof.Laws.RoundTrip.Statement (.suba v) :=
  fun _ _ => rfl

theorem Sys2Proof.Laws.RoundTrip.anda (v : Sys2Proof.Byte) : Sys2Proof.Laws.RoundTrip.Statement (.anda v) :=
  fun _ _ => rfl

theorem Sys2Proof.Laws.RoundTrip.lda (v : Sys2Proof.Byte) : Sys2Proof.Laws.RoundTrip.Statement (.lda v) :=
  fun _ _ => rfl

theorem Sys2Proof.Laws.RoundTrip.eora (v : Sys2Proof.Byte) : Sys2Proof.Laws.RoundTrip.Statement (.eora v) :=
  fun _ _ => rfl

theorem Sys2Proof.Laws.RoundTrip.ora (v : Sys2Proof.Byte) : Sys2Proof.Laws.RoundTrip.Statement (.ora v) :=
  fun _ _ => rfl

theorem Sys2Proof.Laws.RoundTrip.adda (v : Sys2Proof.Byte) : Sys2Proof.Laws.RoundTrip.Statement (.adda v) :=
  fun _ _ => rfl

theorem Sys2Proof.Laws.RoundTrip.sta (v : Sys2Proof.Byte) : Sys2Proof.Laws.RoundTrip.Statement (.sta v) :=
  fun _ _ => rfl

theorem Sys2Proof.Laws.RoundTrip.subb (v : Sys2Proof.Byte) : Sys2Proof.Laws.RoundTrip.Statement (.subb v) :=
  fun _ _ => rfl

theorem Sys2Proof.Laws.RoundTrip.andb (v : Sys2Proof.Byte) : Sys2Proof.Laws.RoundTrip.Statement (.andb v) :=
  fun _ _ => rfl

theorem Sys2Proof.Laws.RoundTrip.ldb (v : Sys2Proof.Byte) : Sys2Proof.Laws.RoundTrip.Statement (.ldb v) :=
  fun _ _ => rfl

theorem Sys2Proof.Laws.RoundTrip.eorb (v : Sys2Proof.Byte) : Sys2Proof.Laws.RoundTrip.Statement (.eorb v) :=
  fun _ _ => rfl

theorem Sys2Proof.Laws.RoundTrip.orb (v : Sys2Proof.Byte) : Sys2Proof.Laws.RoundTrip.Statement (.orb v) :=
  fun _ _ => rfl

theorem Sys2Proof.Laws.RoundTrip.addb (v : Sys2Proof.Byte) : Sys2Proof.Laws.RoundTrip.Statement (.addb v) :=
  fun _ _ => rfl

theorem Sys2Proof.Laws.RoundTrip.stb (v : Sys2Proof.Byte) : Sys2Proof.Laws.RoundTrip.Statement (.stb v) :=
  fun _ _ => rfl
end

