-- ==== Sys2Proof/Laws/Results.lean ====
section
/-! SUPPORT. The flag algorithms as arithmetic, and registers read back by code (41_alu_flags.md R100 to R103, R121;
44_stack_regmove.md R159, R160). -/

namespace Sys2Proof.Machine

/-! ### N and Z (R100, R101) -/

theorem ccNZ8_writes (cc m : Byte) : ccWrites cc (ccNZ8 cc m) (nzOf8 m) := by
  intro bit
  have : (m == 0#8) = decide (m.toNat = 0) := by
    rw [Bool.eq_iff_iff]; simp [← BitVec.toNat_inj]
  rw [ccGet_ccNZ8, bit7_iff, this]; cases bit <;> rfl

theorem ccNZ16_writes (cc : Byte) (m : Word) : ccWrites cc (ccNZ16 cc m) (nzOf16 m) := by
  intro bit
  have : (m == 0#16) = decide (m.toNat = 0) := by
    rw [Bool.eq_iff_iff]; simp [← BitVec.toNat_inj]
  rw [ccGet_ccNZ16, bit15_iff, this]; cases bit <;> rfl

/-! ### The bits AddFlags8 and SubFlags8 look at (R102, R103) -/

theorem bit4_iff (p : Byte) : p.getLsbD 4 = decide (16 ≤ p.toNat % 32) := by revert p; decide

theorem bit4_iff9 (r : BitVec 9) : r.getLsbD 4 = decide (16 ≤ r.toNat % 32) := by revert r; decide

theorem bit7_iff9 (r : BitVec 9) : r.getLsbD 7 = decide (128 ≤ r.toNat % 256) := by revert r; decide

theorem bit8_iff9 (r : BitVec 9) : r.getLsbD 8 = decide (256 ≤ r.toNat) := by revert r; decide

/-- The signed value of a byte. -/
theorem byte_toInt (p : Byte) : p.toInt = if 128 ≤ p.toNat then (p.toNat : Int) - 256 else p.toNat := by
  rw [BitVec.toInt_eq_toNat_cond]; split <;> split <;> omega

/-- The carry of an addition (R102). -/
theorem sum9_carry (p q : Byte) : (sum9 p q).getLsbD 8 = decide (255 < p.toNat + q.toNat) := by
  rw [bit8_iff9, sum9_toNat, decide_eq_decide]; omega

/-- The half carry of an addition (R102). -/
theorem sum9_halfCarry (p q : Byte) : (p.getLsbD 4 ^^ q.getLsbD 4 ^^ (sum9 p q).getLsbD 4) =
    decide (15 < p.toNat % 16 + q.toNat % 16) := by
  rw [bit4_iff, bit4_iff, bit4_iff9, sum9_toNat, Bool.eq_iff_iff]
  by_cases h1 : 16 ≤ p.toNat % 32 <;> by_cases h2 : 16 ≤ q.toNat % 32 <;>
    by_cases h3 : 16 ≤ (p.toNat + q.toNat) % 32 <;> simp [h1, h2, h3] <;> omega

/-- The signed overflow of an addition (R102). -/
theorem sum9_overflow (p q : Byte) :
    (p.getLsbD 7 == q.getLsbD 7 && (sum9 p q).getLsbD 7 != p.getLsbD 7) = signedOverflow (p.toInt + q.toInt) := by
  have := p.isLt; have := q.isLt
  rw [bit7_iff, bit7_iff, bit7_iff9, sum9_toNat, Bool.eq_iff_iff, signedOverflow, byte_toInt, byte_toInt]
  by_cases h1 : 128 ≤ p.toNat <;> by_cases h2 : 128 ≤ q.toNat <;> simp [h1, h2] <;> omega

/-- The borrow of a subtraction (R103). -/
theorem diff9_borrow (p q : Byte) : (diff9 p q).getLsbD 8 = decide (p.toNat < q.toNat) := by
  have := p.isLt; have := q.isLt
  rw [bit8_iff9, diff9_toNat, decide_eq_decide]; omega

/-- The signed overflow of a subtraction (R103). -/
theorem diff9_overflow (p q : Byte) :
    (p.getLsbD 7 != q.getLsbD 7 && (diff9 p q).getLsbD 7 != p.getLsbD 7) = signedOverflow (p.toInt - q.toInt) := by
  have := p.isLt; have := q.isLt
  rw [bit7_iff, bit7_iff, bit7_iff9, diff9_toNat, Bool.eq_iff_iff, signedOverflow, byte_toInt, byte_toInt]
  by_cases h1 : 128 ≤ p.toNat <;> by_cases h2 : 128 ≤ q.toNat <;> simp [h1, h2] <;> omega

end Sys2Proof.Machine
end

