-- ==== Sys2Proof/Laws/Stack.lean ====
section
/-! SUPPORT. The stack (44_stack_regmove.md R150 to R156): pops as a run of accessor reads, pushes as stores below SP,
and the multi-register frame as the list of bytes `frameBytes`. -/

namespace Sys2Proof.Machine

/-! ### Bytes of a word -/

/-- The value of a word from its bytes (R46). -/
theorem append_toNat (p q : Byte) : (p ++ q : Word).toNat = p.toNat * 256 + q.toNat := by
  refine (BitVec.toNat_append p q).trans ?_
  rw [← Nat.shiftLeft_add_eq_or_of_lt q.isLt, Nat.shiftLeft_eq]

theorem highByte_toNat (v : Word) : (highByte v).toNat = v.toNat / 256 := by
  have := v.isLt
  simp [highByte, Nat.shiftRight_eq_div_pow]; omega

theorem lowByte_toNat (v : Word) : (lowByte v).toNat = v.toNat % 256 := by
  simp [lowByte]

@[simp] theorem highByte_append (p q : Byte) : highByte (p ++ q) = p := by
  have := q.isLt
  apply BitVec.eq_of_toNat_eq
  rw [highByte_toNat, append_toNat]; omega

@[simp] theorem lowByte_append (p q : Byte) : lowByte (p ++ q) = q := by
  have := q.isLt
  apply BitVec.eq_of_toNat_eq
  rw [lowByte_toNat, append_toNat]; omega

@[simp] theorem highByte_lowByte (v : Word) : (highByte v ++ lowByte v : Word) = v := by
  apply BitVec.eq_of_toNat_eq
  rw [append_toNat, highByte_toNat, lowByte_toNat]; omega

/-! ### Pops -/

/-- `t` is `s` after `k` bytes have been popped, whatever registers took them. -/
structure PoppedSoFar (s t : State) (k : Nat) : Prop where
  read : ReadSoFar s t s.sp k
  sp : t.sp = offsetAddr s.sp k

theorem PoppedSoFar.start (s : State) : PoppedSoFar s s 0 := ⟨.start s _, by simp⟩

/-- One more byte popped (R151). -/
theorem PoppedSoFar.popByte {s t : State} {k : Nat} (h : PoppedSoFar s t k) :
    t.popByte = (s.accessorByte s.sp k,
      { t with sp := offsetAddr s.sp (k + 1), kbdPending := s.pendingAfter s.sp (k + 1) }) := by
  simp [State.popByte, h.sp, h.read.memRead, offsetAddr_succ]

/-- One more word popped (R153). -/
theorem PoppedSoFar.popWord {s t : State} {k : Nat} (h : PoppedSoFar s t k) :
    t.popWord = (s.accessorByte s.sp k ++ s.accessorByte s.sp (k + 1),
      { t with sp := offsetAddr s.sp (k + 2), kbdPending := s.pendingAfter s.sp (k + 2) }) := by
  have h1 : PoppedSoFar s
      { t with sp := offsetAddr s.sp (k + 1), kbdPending := s.pendingAfter s.sp (k + 1) } (k + 1) :=
    ⟨⟨h.read.params, h.read.mem, h.read.kbdBuffer, rfl⟩, rfl⟩
  simp [State.popWord, h.popByte, h1.popByte]

/-- `PopByte` (R151). -/
theorem popByte_eq (s : State) :
    s.popByte = (s.accessorByte s.sp 0,
      { s with sp := offsetAddr s.sp 1, kbdPending := s.pendingAfter s.sp 1 }) :=
  (PoppedSoFar.start s).popByte

/-- `PopWord` (R153). -/
theorem popWord_eq (s : State) :
    s.popWord = (s.accessorByte s.sp 0 ++ s.accessorByte s.sp 1,
      { s with sp := offsetAddr s.sp 2, kbdPending := s.pendingAfter s.sp 2 }) :=
  (PoppedSoFar.start s).popWord

/-! ### Pushes -/

/-- `PushByte` as a record update (R150). -/
theorem pushByte_eq (s : State) (v : Byte) :
    s.pushByte v = { s with sp := s.sp - 1#16, mem := Memory.write s.mem (s.sp - 1#16).toNat v } := rfl

/-- `t` is `s` after the bytes `bs` (lowest address first) have been pushed: SP is that much lower, they lie there, no
other cell and nothing else has changed. -/
structure Pushed (s t : State) (bs : List Byte) : Prop where
  same : t = { s with sp := s.sp - BitVec.ofNat 16 bs.length, mem := t.mem }
  wf : Memory.wf t.mem
  lies : ∀ k, (h : k < bs.length) → t.rawRead (offsetAddr t.sp k) = bs[k]
  others : ∀ addr, (∀ k, k < bs.length → addr ≠ offsetAddr t.sp k) → t.rawRead addr = s.rawRead addr

theorem Pushed.start (s : State) (h : Memory.wf s.mem) : Pushed s s [] :=
  ⟨by simp, h, by simp, by simp⟩

theorem Pushed.sp {s t : State} {bs : List Byte} (h : Pushed s t bs) :
    t.sp = s.sp - BitVec.ofNat 16 bs.length := by rw [h.same]

/-- One more byte pushed (R150), as long as the frame is shorter than the address space. -/
theorem Pushed.pushByte {s t : State} {bs : List Byte} (h : Pushed s t bs) (hl : bs.length < 65535) (v : Byte) :
    Pushed s (t.pushByte v) (v :: bs) := by
  have hup : ∀ k, offsetAddr (t.sp - 1#16) (k + 1) = offsetAddr t.sp k := fun k => by
    rw [← offsetAddr_succ]; simp only [offsetAddr]; ring
  have hread : ∀ addr, (t.pushByte v).rawRead addr = if addr = t.sp - 1#16 then v else t.rawRead addr :=
    fun addr => rawRead_rawWrite { t with sp := t.sp - 1#16 } (t.sp - 1#16) addr v h.wf
  refine ⟨?_, rawWrite_wf { t with sp := t.sp - 1#16 } _ _ h.wf, fun k hk => ?_, fun addr ha => ?_⟩
  · have hsp : t.sp - 1#16 = s.sp - BitVec.ofNat 16 (v :: bs).length := by
      rw [h.sp, List.length_cons, BitVec.ofNat_add]; ring
    rw [pushByte_eq, hsp, h.same]
  · rw [hread]
    cases k with
    | zero => simp [pushByte_eq]
    | succ k =>
      have hk' : k < bs.length := by simpa using hk
      rw [pushByte_eq, hup, if_neg, h.lies k hk']
      · rfl
      · intro he
        have := offsetAddr_inj (t.sp - 1#16) (j := k + 1) (k := 0) (by omega) (by omega)
          (by rw [hup, he, offsetAddr_zero])
        omega
  · rw [hread, if_neg, h.others addr fun k hk => ?_]
    · have := ha (k + 1) (by simpa using hk)
      rwa [pushByte_eq, hup] at this
    · simpa [pushByte_eq] using ha 0 (by simp)

/-- One more word pushed (R152). -/
theorem Pushed.pushWord {s t : State} {bs : List Byte} (h : Pushed s t bs) (hl : bs.length < 65534) (v : Word) :
    Pushed s (t.pushWord v) (highByte v :: lowByte v :: bs) :=
  (h.pushByte (by omega) _).pushByte (by simp; omega) _

/-- The registers a frame saves are those of the state the push began in. -/
theorem Pushed.register {s t : State} {bs : List Byte} (h : Pushed s t bs) :
    t.pc = s.pc ∧ t.u = s.u ∧ t.y = s.y ∧ t.x = s.x ∧ t.dp = s.dp ∧ t.b = s.b ∧ t.a = s.a ∧ t.cc = s.cc := by
  rw [h.same]; simp

/-- One conditional byte of a multi-register push. -/
theorem Pushed.whenByte {s t : State} {bs : List Byte} {n : Nat} (h : Pushed s t bs ∧ bs.length ≤ n)
    (hn : n < 65535) (bit : Bool) (reg : State → Byte) (hreg : reg t = reg s) :
    Pushed s (t.whenBit bit fun t => t.pushByte (reg t)) ((if bit then [reg s] else []) ++ bs) ∧
      ((if bit then [reg s] else []) ++ bs).length ≤ n + 1 := by
  obtain ⟨h, hl⟩ := h
  cases bit
  · exact ⟨h, by simp; omega⟩
  · exact ⟨hreg ▸ h.pushByte (by omega) (reg t), by simp; omega⟩

/-- One conditional word of a multi-register push. -/
theorem Pushed.whenWord {s t : State} {bs : List Byte} {n : Nat} (h : Pushed s t bs ∧ bs.length ≤ n)
    (hn : n < 65534) (bit : Bool) (reg : State → Word) (hreg : reg t = reg s) :
    Pushed s (t.whenBit bit fun t => t.pushWord (reg t))
        ((if bit then [highByte (reg s), lowByte (reg s)] else []) ++ bs) ∧
      ((if bit then [highByte (reg s), lowByte (reg s)] else []) ++ bs).length ≤ n + 2 := by
  obtain ⟨h, hl⟩ := h
  cases bit
  · exact ⟨h, by simp; omega⟩
  · exact ⟨hreg ▸ h.pushWord (by omega) (reg t), by simp; omega⟩

/-- `PushMultiple` pushes the frame of its mask (R154). -/
theorem pushMultiple_pushed (s : State) (mask : Byte) (h : Memory.wf s.mem) :
    Pushed s (s.pushMultiple mask) (s.frameBytes mask) := by
  have h0 : Pushed s s [] ∧ ([] : List Byte).length ≤ 0 := ⟨.start s h, by simp⟩
  have h1 := Pushed.whenWord h0 (by omega) (mask.getLsbD 7) State.pc rfl
  have h2 := Pushed.whenWord h1 (by omega) (mask.getLsbD 6) State.u h1.1.register.2.1
  have h3 := Pushed.whenWord h2 (by omega) (mask.getLsbD 5) State.y h2.1.register.2.2.1
  have h4 := Pushed.whenWord h3 (by omega) (mask.getLsbD 4) State.x h3.1.register.2.2.2.1
  have h5 := Pushed.whenByte h4 (by omega) (mask.getLsbD 3) State.dp h4.1.register.2.2.2.2.1
  have h6 := Pushed.whenByte h5 (by omega) (mask.getLsbD 2) State.b h5.1.register.2.2.2.2.2.1
  have h7 := Pushed.whenByte h6 (by omega) (mask.getLsbD 1) State.a h6.1.register.2.2.2.2.2.2.1
  have h8 := Pushed.whenByte h7 (by omega) (mask.getLsbD 0) State.cc h7.1.register.2.2.2.2.2.2.2
  have h9 := h8.1
  simp only [List.append_nil, ← List.append_assoc] at h9
  exact h9

/-- A multi-register push changes SP and memory only, in any memory (R154). -/
theorem pushMultiple_same (s : State) (mask : Byte) :
    ∃ m sp, s.pushMultiple mask = { s with mem := m, sp := sp } := by
  have hb : ∀ (t : State) (bit : Bool) (r : State → Byte), (∃ m sp, t = { s with mem := m, sp := sp }) →
      ∃ m sp, t.whenBit bit (fun t => t.pushByte (r t)) = { s with mem := m, sp := sp } := by
    rintro _ (_ | _) r ⟨m, sp, rfl⟩
    · exact ⟨m, sp, rfl⟩
    · exact ⟨_, _, rfl⟩
  have hw : ∀ (t : State) (bit : Bool) (r : State → Word), (∃ m sp, t = { s with mem := m, sp := sp }) →
      ∃ m sp, t.whenBit bit (fun t => t.pushWord (r t)) = { s with mem := m, sp := sp } := by
    rintro _ (_ | _) r ⟨m, sp, rfl⟩
    · exact ⟨m, sp, rfl⟩
    · exact ⟨_, _, rfl⟩
  exact hb _ _ _ (hb _ _ _ (hb _ _ _ (hb _ _ _ (hw _ _ _ (hw _ _ _ (hw _ _ _ (hw _ _ _ ⟨_, _, rfl⟩)))))))

/-! ### The multi-register pull -/

/-- `s` after `n` bytes have been popped into the registers given. -/
def pulledState (s : State) (n : Nat) (cc a b dp : Byte) (x y u pc : Word) : State :=
  { s with sp := offsetAddr s.sp n, kbdPending := s.pendingAfter s.sp n,
           cc := cc, a := a, b := b, dp := dp, x := x, y := y, u := u, pc := pc }

theorem pulledState_start (s : State) : pulledState s 0 s.cc s.a s.b s.dp s.x s.y s.u s.pc = s := by
  simp [pulledState]

theorem pulledState_popped (s : State) (n : Nat) (cc a b dp : Byte) (x y u pc : Word) :
    PoppedSoFar s (pulledState s n cc a b dp x y u pc) n := ⟨⟨rfl, rfl, rfl, rfl⟩, rfl⟩

theorem pulledState_popByte (s : State) (n : Nat) (cc a b dp : Byte) (x y u pc : Word) :
    (pulledState s n cc a b dp x y u pc).popByte =
      (s.accessorByte s.sp n, pulledState s (n + 1) cc a b dp x y u pc) :=
  (pulledState_popped ..).popByte

theorem pulledState_popWord (s : State) (n : Nat) (cc a b dp : Byte) (x y u pc : Word) :
    (pulledState s n cc a b dp x y u pc).popWord =
      (s.accessorByte s.sp n ++ s.accessorByte s.sp (n + 1), pulledState s (n + 2) cc a b dp x y u pc) :=
  (pulledState_popped ..).popWord

/-- The byte a conditional pull gives a register. -/
def pulledByte (s : State) (bit : Bool) (n : Nat) (old : Byte) : Byte :=
  if bit then s.accessorByte s.sp n else old

/-- The word a conditional pull gives a register. -/
def pulledWord (s : State) (bit : Bool) (n : Nat) (old : Word) : Word :=
  if bit then s.accessorByte s.sp n ++ s.accessorByte s.sp (n + 1) else old

/-- `PullMultiple` line by line (R155): how many bytes are popped before each register, and what it takes. -/
theorem pullMultiple_eq (s : State) (mask : Byte) :
    let n1 := (mask.getLsbD 0).toNat
    let n2 := n1 + (mask.getLsbD 1).toNat
    let n3 := n2 + (mask.getLsbD 2).toNat
    let n4 := n3 + (mask.getLsbD 3).toNat
    let n5 := n4 + 2 * (mask.getLsbD 4).toNat
    let n6 := n5 + 2 * (mask.getLsbD 5).toNat
    let n7 := n6 + 2 * (mask.getLsbD 6).toNat
    s.pullMultiple mask = pulledState s (n7 + 2 * (mask.getLsbD 7).toNat)
      (pulledByte s (mask.getLsbD 0) 0 s.cc) (pulledByte s (mask.getLsbD 1) n1 s.a)
      (pulledByte s (mask.getLsbD 2) n2 s.b) (pulledByte s (mask.getLsbD 3) n3 s.dp)
      (pulledWord s (mask.getLsbD 4) n4 s.x) (pulledWord s (mask.getLsbD 5) n5 s.y)
      (pulledWord s (mask.getLsbD 6) n6 s.u) (pulledWord s (mask.getLsbD 7) n7 s.pc) := by
  intro n1 n2 n3 n4 n5 n6 n7
  have h : ∀ (bit : Bool) (f : State → State) (t off on : State), t = off → f off = on →
      t.whenBit bit f = if bit then on else off := by
    rintro (_ | _) f t off on rfl rfl <;> rfl
  have h1 : s.whenBit (mask.getLsbD 0) (fun s => { s.popByte.2 with cc := s.popByte.1 }) =
      pulledState s n1 (pulledByte s (mask.getLsbD 0) 0 s.cc) s.a s.b s.dp s.x s.y s.u s.pc := by
    rw [h _ _ _ _ _ (pulledState_start s).symm (by rw [pulledState_popByte])]
    simp only [n1]; cases mask.getLsbD 0 <;> rfl
  have h2 : ∀ cc, (pulledState s n1 cc s.a s.b s.dp s.x s.y s.u s.pc).whenBit (mask.getLsbD 1)
        (fun s => { s.popByte.2 with a := s.popByte.1 }) =
      pulledState s n2 cc (pulledByte s (mask.getLsbD 1) n1 s.a) s.b s.dp s.x s.y s.u s.pc := fun cc => by
    rw [h _ _ _ _ _ rfl (by rw [pulledState_popByte])]
    simp only [n2]; cases mask.getLsbD 1 <;> rfl
  have h3 : ∀ cc a, (pulledState s n2 cc a s.b s.dp s.x s.y s.u s.pc).whenBit (mask.getLsbD 2)
        (fun s => { s.popByte.2 with b := s.popByte.1 }) =
      pulledState s n3 cc a (pulledByte s (mask.getLsbD 2) n2 s.b) s.dp s.x s.y s.u s.pc := fun cc a => by
    rw [h _ _ _ _ _ rfl (by rw [pulledState_popByte])]
    simp only [n3]; cases mask.getLsbD 2 <;> rfl
  have h4 : ∀ cc a b, (pulledState s n3 cc a b s.dp s.x s.y s.u s.pc).whenBit (mask.getLsbD 3)
        (fun s => { s.popByte.2 with dp := s.popByte.1 }) =
      pulledState s n4 cc a b (pulledByte s (mask.getLsbD 3) n3 s.dp) s.x s.y s.u s.pc := fun cc a b => by
    rw [h _ _ _ _ _ rfl (by rw [pulledState_popByte])]
    simp only [n4]; cases mask.getLsbD 3 <;> rfl
  have h5 : ∀ cc a b dp, (pulledState s n4 cc a b dp s.x s.y s.u s.pc).whenBit (mask.getLsbD 4)
        (fun s => { s.popWord.2 with x := s.popWord.1 }) =
      pulledState s n5 cc a b dp (pulledWord s (mask.getLsbD 4) n4 s.x) s.y s.u s.pc := fun cc a b dp => by
    rw [h _ _ _ _ _ rfl (by rw [pulledState_popWord])]
    simp only [n5]; cases mask.getLsbD 4 <;> rfl
  have h6 : ∀ cc a b dp x, (pulledState s n5 cc a b dp x s.y s.u s.pc).whenBit (mask.getLsbD 5)
        (fun s => { s.popWord.2 with y := s.popWord.1 }) =
      pulledState s n6 cc a b dp x (pulledWord s (mask.getLsbD 5) n5 s.y) s.u s.pc := fun cc a b dp x => by
    rw [h _ _ _ _ _ rfl (by rw [pulledState_popWord])]
    simp only [n6]; cases mask.getLsbD 5 <;> rfl
  have h7 : ∀ cc a b dp x y, (pulledState s n6 cc a b dp x y s.u s.pc).whenBit (mask.getLsbD 6)
        (fun s => { s.popWord.2 with u := s.popWord.1 }) =
      pulledState s n7 cc a b dp x y (pulledWord s (mask.getLsbD 6) n6 s.u) s.pc := fun cc a b dp x y => by
    rw [h _ _ _ _ _ rfl (by rw [pulledState_popWord])]
    simp only [n7]; cases mask.getLsbD 6 <;> rfl
  have h8 : ∀ cc a b dp x y u, (pulledState s n7 cc a b dp x y u s.pc).whenBit (mask.getLsbD 7)
        (fun s => { s.popWord.2 with pc := s.popWord.1 }) =
      pulledState s (n7 + 2 * (mask.getLsbD 7).toNat) cc a b dp x y u
        (pulledWord s (mask.getLsbD 7) n7 s.pc) := fun cc a b dp x y u => by
    rw [h _ _ _ _ _ rfl (by rw [pulledState_popWord])]
    cases mask.getLsbD 7 <;> rfl
  rw [State.pullMultiple, h1, h2, h3, h4, h5, h6, h7, h8]

/-- A run of popped bytes, extended by one. -/
theorem popped_append_byte (s : State) (n : Nat) (bit : Bool) :
    (List.range n).map (s.accessorByte s.sp) ++ (if bit then [s.accessorByte s.sp n] else []) =
      (List.range (n + bit.toNat)).map (s.accessorByte s.sp) := by
  cases bit <;> simp [List.range_succ]

/-- A run of popped bytes, extended by two. -/
theorem popped_append_word (s : State) (n : Nat) (bit : Bool) :
    (List.range n).map (s.accessorByte s.sp)
        ++ (if bit then [s.accessorByte s.sp n, s.accessorByte s.sp (n + 1)] else []) =
      (List.range (n + 2 * bit.toNat)).map (s.accessorByte s.sp) := by
  cases bit <;> simp [List.range_succ]

/-- The frame of a mask has the size of the mask (R154). -/
theorem frameBytes_length (s : State) (mask : Byte) : (s.frameBytes mask).length = frameSize mask := by
  unfold State.frameBytes frameSize
  cases mask.getLsbD 0 <;> cases mask.getLsbD 1 <;> cases mask.getLsbD 2 <;> cases mask.getLsbD 3 <;>
    cases mask.getLsbD 4 <;> cases mask.getLsbD 5 <;> cases mask.getLsbD 6 <;> cases mask.getLsbD 7 <;> rfl

/-- What `PullMultiple` puts into the selected registers is the run of bytes the accessor gives from SP upward (R155). -/
theorem pullMultiple_frameBytes (s : State) (mask : Byte) :
    (s.pullMultiple mask).frameBytes mask = (List.range (frameSize mask)).map (s.accessorByte s.sp) := by
  have hb : ∀ bit n old, (if bit = true then [pulledByte s bit n old] else []) =
      if bit = true then [s.accessorByte s.sp n] else [] := by
    rintro (_ | _) n old <;> rfl
  have hw : ∀ bit n old, (if bit = true then
        [highByte (pulledWord s bit n old), lowByte (pulledWord s bit n old)] else []) =
      if bit = true then [s.accessorByte s.sp n, s.accessorByte s.sp (n + 1)] else [] := by
    rintro (_ | _) n old <;> simp [pulledWord]
  have h0 : (if mask.getLsbD 0 = true then [s.accessorByte s.sp 0] else []) =
      (List.range (mask.getLsbD 0).toNat).map (s.accessorByte s.sp) := by
    simpa using popped_append_byte s 0 (mask.getLsbD 0)
  rw [pullMultiple_eq, State.frameBytes]
  simp only [pulledState, hb, hw, h0, popped_append_byte, popped_append_word]
  congr 2
  simp only [frameSize]; omega

/-- How far `PullMultiple` moves SP, and what its pops leave of a pending byte. -/
theorem pullMultiple_sp (s : State) (mask : Byte) :
    (s.pullMultiple mask).sp = offsetAddr s.sp (frameSize mask) ∧
      (s.pullMultiple mask).kbdPending = s.pendingAfter s.sp (frameSize mask) := by
  rw [pullMultiple_eq]
  have : ∀ n, n = frameSize mask → offsetAddr s.sp n = offsetAddr s.sp (frameSize mask) ∧
      s.pendingAfter s.sp n = s.pendingAfter s.sp (frameSize mask) := by rintro n rfl; exact ⟨rfl, rfl⟩
  exact this _ (by simp only [frameSize]; omega)

theorem frameSize_le (mask : Byte) : frameSize mask ≤ 12 := by
  unfold frameSize
  have := fun n => (mask.getLsbD n).toNat_le
  have h0 := this 0; have h1 := this 1; have h2 := this 2; have h3 := this 3
  have h4 := this 4; have h5 := this 5; have h6 := this 6; have h7 := this 7
  omega

end Sys2Proof.Machine
end

