-- ==== Sys2Proof/Laws/Step.lean ====
section
/-! SUPPORT. What a step can do (40_fetch_step.md R82 to R92), said once: which case applies, what an executed instruction
leaves alone outside the registers, and that every step answers a next state. -/

namespace Sys2Proof.Machine

/-! ### Fetch (R80, R81, R87) -/

theorem fetchByte_eq (s : State) : s.fetchByte = (s.rawRead s.pc, { s with pc := s.pc + 1#16 }) := rfl

/-- The opcode part (R61, R87). -/
theorem fetchKey_eq (s : State) :
    s.fetchKey = if isEscape (s.rawRead s.pc) then
        (escapedKey (s.rawRead s.pc) (s.rawRead (s.pc + 1#16)), { s with pc := offsetAddr s.pc 2 })
      else (byteKey (s.rawRead s.pc), { s with pc := offsetAddr s.pc 1 }) := by
  have h2 : s.pc + 1#16 + 1#16 = offsetAddr s.pc 2 := by simp [offsetAddr, BitVec.add_assoc]
  simp only [State.fetchKey, fetchByte_eq, h2]
  rfl

/-- The opcode part as a step fetches it, the introspection fields cleared first (R87, R90). -/
theorem fetchKey_cleared (s : State) :
    s.clearIntrospection.fetchKey = if isEscape (s.rawRead s.pc) then
        (escapedKey (s.rawRead s.pc) (s.rawRead (s.pc + 1#16)), s.fetched 2)
      else (byteKey (s.rawRead s.pc), s.fetched 1) := fetchKey_eq s.clearIntrospection

/-- The operand byte of an unprefixed instruction (R62, R89). -/
theorem fetchByte_fetched (s : State) : (s.fetched 1).fetchByte = (s.rawRead (s.pc + 1#16), s.fetched 2) := by
  have : offsetAddr s.pc 2 = s.pc + 1#16 + 1#16 := by simp [offsetAddr, BitVec.add_assoc]
  simp only [State.fetched, this]
  rfl

/-! ### Which case of R82 applies -/

/-- A step that reaches the fetch runs an instruction (R82). -/
theorem step_of_fetches {s : State} (h : s.fetches) : step s = s.runInstruction := by
  have := h.noBreakpoint
  simp [step, sequencer, h.running, h.noRequest, this]

/-- A halted core does nothing (R83). -/
theorem step_of_halted {s : State} (h : s.runState = .halted) : step s = .next s := by
  simp [step, sequencer, h]

/-- A pending request of a core that is not halted is serviced (R85). -/
theorem step_of_request {s : State} (h : s.runState ≠ .halted) (hi : s.irqPending = true) :
    step s = .next s.serviceInterrupt := by
  simp [step, sequencer, h, hi]

/-- The cases of a step that fetches nothing (R83 to R86). -/
theorem step_cases (s : State) :
    (step s = .next s ∧ (s.runState = .halted ∨ s.irqPending = false)) ∨
    (s.runState ≠ .halted ∧ s.irqPending = true ∧ step s = .next s.serviceInterrupt) ∨
    (s.fetches ∧ step s = s.runInstruction) := by
  by_cases hh : s.runState = .halted
  · exact .inl ⟨step_of_halted hh, .inl hh⟩
  by_cases hi : s.irqPending = true
  · exact .inr (.inl ⟨hh, hi, step_of_request hh hi⟩)
  have hi : s.irqPending = false := by simpa using hi
  cases hr : s.runState with
  | halted => exact absurd hr hh
  | waitingForInterrupt => exact .inl ⟨by simp [step, sequencer, hr, hi], .inr hi⟩
  | running =>
    by_cases hb : s.pc ∈ s.breakpoints
    · exact .inl ⟨by simp [step, sequencer, hr, hi, hb], .inr hi⟩
    · have hf : s.fetches := ⟨hr, hi, hb⟩
      exact .inr (.inr ⟨hf, step_of_fetches hf⟩)

/-- A step that fetches runs what the bytes at PC decode to (R87 to R90). -/
theorem runInstruction_of_decode {s : State} {i : Instr} {rest : List Byte}
    (h : decode s.bytesAtPc = .ok (i, rest)) :
    s.runInstruction = counted (exec i (s.fetched (encode i).length)) := by
  rw [State.bytesAtPc, decode_pair] at h
  split at h
  · cases h
  rename_i he
  simp only [State.runInstruction, fetchKey_cleared, if_neg he]
  have hlen : ∀ e, lookupKey (byteKey (s.rawRead s.pc)) = some e →
      match e with
      | .inherent i => (encode i).length = 1
      | .withByte make => ∀ b, (encode (make b)).length = 2 := fun e hl => by
    have := mem_of_lookupKey hl
    simp only [opcodeTable, opcodeTableSystem, opcodeTableAccumulator, opcodeTableB, List.cons_append,
      List.nil_append, List.mem_cons, Prod.mk.injEq, List.not_mem_nil, or_false] at this
    rcases this with h | h | h | h | h | h | h | h | h | h | h | h | h | h | h | h | h | h | h | h | h | h | h |
      h | h | h | h | h | h <;> rw [h.2] <;> simp [encode]
  cases hl : lookupKey (byteKey (s.rawRead s.pc)) with
  | none => simp [hl] at h
  | some e =>
    have hlen := hlen e hl
    cases e with
    | inherent j =>
      simp only [hl, Except.ok.injEq, Prod.mk.injEq] at h
      obtain ⟨rfl, -⟩ := h
      simp only [State.runKey, hl, hlen]
    | withByte make =>
      simp only [hl, Except.ok.injEq, Prod.mk.injEq] at h
      obtain ⟨rfl, -⟩ := h
      simp only [State.runKey, hl, hlen, fetchByte_fetched]

/-- A step that fetches an unmapped key waits on the wait opcode and halts on any other (R71, R88). -/
theorem runInstruction_of_unknown {s : State} {key : Key}
    (h : decode s.bytesAtPc = .error (.unknownOpcode key)) :
    lookupKey key = none ∧ ∃ n, (n = if isEscape (s.rawRead s.pc) then 2 else 1) ∧
      key = (if isEscape (s.rawRead s.pc) then escapedKey (s.rawRead s.pc) (s.rawRead (s.pc + 1#16))
        else byteKey (s.rawRead s.pc)) ∧
      s.runInstruction = if s.params.waitOpcode = some key then counted (execWai (s.fetched n))
        else .next ((s.fetched n).raiseUnknownOpcode key s.pc) := by
  rw [State.bytesAtPc, decode_pair] at h
  simp only [State.runInstruction, fetchKey_cleared]
  split at h
  · rename_i he
    cases h
    refine ⟨lookupKey_escaped _ _ he, 2, by simp [he], by simp [he], ?_⟩
    simp only [if_pos he, State.runKey, lookupKey_escaped _ _ he]
    rfl
  · rename_i he
    cases hl : lookupKey (byteKey (s.rawRead s.pc)) with
    | none =>
      simp only [hl, Except.error.injEq, DecodeError.unknownOpcode.injEq] at h
      subst h
      refine ⟨hl, 1, by simp [he], by simp [he], ?_⟩
      simp only [if_neg he, State.runKey, hl]
      rfl
    | some e => cases e <;> simp [hl] at h

/-- The two bytes at PC always decode or name an unmapped key. -/
theorem decode_bytesAtPc (s : State) :
    (∃ i rest, decode s.bytesAtPc = .ok (i, rest)) ∨
    (∃ key, decode s.bytesAtPc = .error (.unknownOpcode key)) := by
  rw [State.bytesAtPc, decode_pair]
  split
  · exact .inr ⟨_, rfl⟩
  · cases lookupKey (byteKey (s.rawRead s.pc)) with
    | none => exact .inr ⟨_, rfl⟩
    | some e => cases e <;> exact .inl ⟨_, _, rfl⟩

/-! ### Executing an instruction -/

/-- Every instruction answers a next state: no operation of the core signals an error (R89, R203). -/
theorem exec_next (i : Instr) (s : State) : ∃ t, exec i s = .next t := by
  cases i <;> exact ⟨_, rfl⟩

/-- What a state change leaves alone outside the registers, memory and the introspection fields. -/
structure KeepsSystem (s t : State) : Prop where
  irqPending : t.irqPending = s.irqPending
  breakpoints : t.breakpoints = s.breakpoints
  instrCount : t.instrCount = s.instrCount
  faultRecord : t.faultRecord = s.faultRecord
  kbdBuffer : t.kbdBuffer = s.kbdBuffer
  freeCount : t.freeCount = s.freeCount
  params : t.params = s.params
  kbdPending : t.kbdPending = true → s.kbdPending = true

theorem KeepsSystem.refl (s : State) : KeepsSystem s s := ⟨rfl, rfl, rfl, rfl, rfl, rfl, rfl, id⟩

/-- Only a read of the data port touches a pending byte, and it clears it (R195). -/
theorem pendingAfter_le (s : State) (base : Word) (n : Nat) :
    s.pendingAfter base n = true → s.kbdPending = true := by
  unfold State.pendingAfter
  split
  · simp +contextual
  · exact id

theorem writeReg_same (s : State) (r : RegCode) (v : Word) : sameButRegisters s (s.writeReg r v) := by
  cases r <;> rfl

theorem sameButRegisters.keeps {s t : State} (h : sameButRegisters s t) :
    KeepsSystem s t ∧ t.runState = s.runState ∧ t.mem = s.mem := by
  rw [sameButRegisters] at h
  rw [h]
  exact ⟨⟨rfl, rfl, rfl, rfl, rfl, rfl, rfl, id⟩, rfl, rfl⟩

theorem pulledState_keeps (s : State) (n : Nat) (cc a b dp : Byte) (x y u pc : Word) :
    KeepsSystem s (pulledState s n cc a b dp x y u pc) ∧
      (pulledState s n cc a b dp x y u pc).runState = s.runState ∧
      (pulledState s n cc a b dp x y u pc).mem = s.mem :=
  ⟨⟨rfl, rfl, rfl, rfl, rfl, rfl, rfl, pendingAfter_le s _ _⟩, rfl, rfl⟩

/-- What any executed instruction leaves alone (R91): the system state always, the run state but for SYNC. -/
theorem exec_keepsSystem {i : Instr} {s t : State} (h : exec i s = .next t) :
    KeepsSystem s t ∧ t.runState = if i = .sync then .halted else s.runState := by
  have hrfl : ∀ u : State, u = { s with
        a := u.a, b := u.b, x := u.x, y := u.y, u := u.u, sp := u.sp, pc := u.pc, dp := u.dp, cc := u.cc,
        mem := u.mem, lastEa := u.lastEa, lastPostbyte := u.lastPostbyte } →
      KeepsSystem s u ∧ u.runState = s.runState := fun u hu => by
    rw [hu]; exact ⟨⟨rfl, rfl, rfl, rfl, rfl, rfl, rfl, id⟩, rfl⟩
  have hpull : ∀ mask, KeepsSystem s (s.pullMultiple mask) ∧ (s.pullMultiple mask).runState = s.runState :=
    fun mask => by
      rw [pullMultiple_eq]
      obtain ⟨h1, h2, -⟩ := pulledState_keeps s _ _ _ _ _ _ _ _ _
      exact ⟨h1, h2⟩
  cases i with
  | sync => cases h; exact ⟨⟨rfl, rfl, rfl, rfl, rfl, rfl, rfl, id⟩, rfl⟩
  | exg r1 r2 =>
    cases h
    obtain ⟨h1, h2, -⟩ := (writeReg_same s r1 (s.readReg r2)).keeps
    obtain ⟨k1, k2, -⟩ := (writeReg_same (s.writeReg r1 (s.readReg r2)) r2 (s.readReg r1)).keeps
    exact ⟨⟨k1.1.trans h1.1, k1.2.trans h1.2, k1.3.trans h1.3, k1.4.trans h1.4, k1.5.trans h1.5, k1.6.trans h1.6,
      k1.7.trans h1.7, fun hk => h1.8 (k1.8 hk)⟩, by simpa using k2.trans h2⟩
  | tfr r1 r2 =>
    cases h
    obtain ⟨h1, h2, -⟩ := (writeReg_same s r2 (s.readReg r1)).keeps
    exact ⟨h1, by simpa using h2⟩
  | pshs mask =>
    cases h
    obtain ⟨m, sp, h⟩ := pushMultiple_same s mask
    simpa using hrfl _ (by rw [h])
  | puls mask => cases h; simpa using hpull mask
  | rti => cases h; simpa [State.returnFromInterrupt] using hpull fullFrame
  | rts =>
    cases h
    rw [popWord_eq]
    exact ⟨⟨rfl, rfl, rfl, rfl, rfl, rfl, rfl, pendingAfter_le s _ _⟩, rfl⟩
  | _ => cases h; exact hrfl _ rfl

/-- An executed instruction keeps the canonical form of memory (R18). -/
theorem exec_wf {i : Instr} {s t : State} (h : exec i s = .next t) (hw : Memory.wf s.mem) : Memory.wf t.mem := by
  have hpull : ∀ mask, (s.pullMultiple mask).mem = s.mem := fun mask => by
    rw [pullMultiple_eq]; exact (pulledState_keeps s _ _ _ _ _ _ _ _ _).2.2
  cases i with
  | exg r1 r2 =>
    cases h
    rw [((writeReg_same _ r2 (s.readReg r1)).keeps).2.2, ((writeReg_same s r1 (s.readReg r2)).keeps).2.2]
    exact hw
  | tfr r1 r2 => cases h; rw [((writeReg_same s r2 (s.readReg r1)).keeps).2.2]; exact hw
  | pshs mask => cases h; exact (pushMultiple_pushed s mask hw).wf
  | puls mask => cases h; rw [hpull]; exact hw
  | rti => cases h; rw [State.returnFromInterrupt, hpull]; exact hw
  | rts => cases h; rw [popWord_eq]; exact hw
  | sta off => cases h; exact rawWrite_wf s _ _ hw
  | stb off => cases h; exact rawWrite_wf s _ _ hw
  | _ => cases h; exact hw

/-- An executed effect is an instruction's next state, counted (R89). -/
theorem counted_next {i : Instr} {s t : State} (h : counted (exec i s) = .next t) :
    ∃ u, exec i s = .next u ∧ t = u.countInstruction := by
  obtain ⟨u, hu⟩ := exec_next i s
  rw [hu] at h
  cases h
  exact ⟨u, hu, rfl⟩

/-! ### The interrupt (R185) -/

/-- The service of an interrupt: the state after the push, whose accessor gives the handler's address, and every field
that differs from the state before. -/
theorem serviceInterrupt_eq (s : State) :
    let pushed := ({ s with cc := s.cc ||| 0x80#8 } : State).pushMultiple fullFrame
    s.serviceInterrupt = { s with
      mem := pushed.mem, cc := s.cc ||| 0x80#8 ||| 0x10#8, sp := pushed.sp,
      pc := pushed.accessorByte Config.irqVectorAddr 0 ++ pushed.accessorByte Config.irqVectorAddr 1,
      kbdPending := pushed.pendingAfter Config.irqVectorAddr 2,
      runState := .running, irqPending := false } := by
  have he : s.setFlag .e true = { s with cc := s.cc ||| 0x80#8 } := rfl
  obtain ⟨m, sp, h⟩ := pushMultiple_same { s with cc := s.cc ||| 0x80#8 } fullFrame
  simp only [State.serviceInterrupt, he, h, memReadWord_eq]
  rfl

/-- The frame the service pushes (R185). -/
theorem serviceInterrupt_pushed (s : State) (h : Memory.wf s.mem) :
    Pushed { s with cc := s.cc ||| 0x80#8 } (({ s with cc := s.cc ||| 0x80#8 } : State).pushMultiple fullFrame)
      (({ s with cc := s.cc ||| 0x80#8 } : State).frameBytes fullFrame) :=
  pushMultiple_pushed _ _ h

/-- Every step answers a next state (R203). -/
theorem step_next (s : State) : ∃ t, step s = .next t := by
  rcases step_cases s with ⟨h, -⟩ | ⟨-, -, h⟩ | ⟨-, h⟩
  · exact ⟨_, h⟩
  · exact ⟨_, h⟩
  · rw [h]
    rcases decode_bytesAtPc s with ⟨i, rest, hd⟩ | ⟨k, hd⟩
    · rw [runInstruction_of_decode hd]
      obtain ⟨u, hu⟩ := exec_next i (s.fetched (encode i).length)
      rw [hu]; exact ⟨_, rfl⟩
    · obtain ⟨-, n, -, -, hr⟩ := runInstruction_of_unknown hd
      rw [hr]; split <;> exact ⟨_, rfl⟩

end Sys2Proof.Machine
end

