-- ==== Sys2Proof/Tests/Slice0.lean ====
section
/-! SUPPORT. The model's own tests: well-formedness, decoding of words written out from the encoding table, one-step tests
whose expected values are the vectors of spec/95_test_vectors.md, and for each obligation with hypotheses a named witness
that meets them. -/

namespace Sys2Proof.Tests

open Sys2Proof Sys2Proof.Machine

/-! ### Small states -/

/-- The start of a vector: reset, no device, no wait opcode. -/
def start : State := .powerOn .standard

/-- A start with the keyboard at 0xFEF2 (data) and 0xFEF3 (status) and WAIT_OPCODE = 0x3E. -/
def startKbd : State := .powerOn { kbd := some { dataAddr := 0xFEF2#16, statusAddr := 0xFEF3#16 }, waitOpcode := some 0x3E#16 }

/-- Bytes placed in memory. -/
def at_ (s : State) (addr : Word) (bytes : List Byte) : State := s.storeBytes addr bytes

/-- The state after one step (the state itself where a step stops, which none does). -/
def stepped (s : State) : State :=
  match step s with
  | .next t => t
  | .fault _ => s
  | .refused _ => s

/-! ### Well-formedness: the one check, on each operand of EXG and TFR (R159) -/

theorem test_wf_refuses_exg_first : (Instr.exg (.unmapped 0#4) .a).wf = false := by decide

theorem test_wf_refuses_exg_second : (Instr.exg .a (.unmapped 5#4)).wf = false := by decide

theorem test_wf_refuses_tfr_first : (Instr.tfr (.unmapped 8#4) .x).wf = false := by decide

theorem test_wf_refuses_tfr_second : (Instr.tfr .x (.unmapped 11#4)).wf = false := by decide

theorem test_wf_accepts : (Instr.exg (.unmapped 6#4) (.unmapped 15#4)).wf = true ∧ (Instr.lda 0xFF#8).wf = true := by
  decide

/-! ### Decoding: each row of R64, its bytes written out from the table (30_encoding.md) -/

theorem test_decode_inherent :
    decode [0x12#8] = .ok (.nop, []) ∧ decode [0x13#8] = .ok (.sync, []) ∧
    decode [0x39#8] = .ok (.rts, []) ∧ decode [0x3B#8] = .ok (.rti, []) ∧
    decode [0x3D#8] = .ok (.mul, []) ∧ decode [0x4A#8] = .ok (.deca, []) ∧
    decode [0x4C#8] = .ok (.inca, []) ∧ decode [0x5A#8] = .ok (.decb, []) ∧
    decode [0x5C#8] = .ok (.incb, []) := ⟨rfl, rfl, rfl, rfl, rfl, rfl, rfl, rfl, rfl⟩

theorem test_decode_immediate_a :
    decode [0x80#8, 0x03#8] = .ok (.suba 0x03#8, []) ∧ decode [0x84#8, 0x3C#8] = .ok (.anda 0x3C#8, []) ∧
    decode [0x86#8, 0x05#8] = .ok (.lda 0x05#8, []) ∧ decode [0x88#8, 0x55#8] = .ok (.eora 0x55#8, []) ∧
    decode [0x8A#8, 0x01#8] = .ok (.ora 0x01#8, []) ∧ decode [0x8B#8, 0xFF#8] = .ok (.adda 0xFF#8, []) :=
  ⟨rfl, rfl, rfl, rfl, rfl, rfl⟩

theorem test_decode_immediate_b :
    decode [0xC0#8, 0x01#8] = .ok (.subb 0x01#8, []) ∧ decode [0xC4#8, 0x80#8] = .ok (.andb 0x80#8, []) ∧
    decode [0xC6#8, 0x7F#8] = .ok (.ldb 0x7F#8, []) ∧ decode [0xC8#8, 0x12#8] = .ok (.eorb 0x12#8, []) ∧
    decode [0xCA#8, 0xF0#8] = .ok (.orb 0xF0#8, []) ∧ decode [0xCB#8, 0x01#8] = .ok (.addb 0x01#8, []) :=
  ⟨rfl, rfl, rfl, rfl, rfl, rfl⟩

theorem test_decode_other_operands :
    decode [0x97#8, 0x10#8] = .ok (.sta 0x10#8, []) ∧ decode [0xD7#8, 0xFF#8] = .ok (.stb 0xFF#8, []) ∧
    decode [0x30#8, 0xFB#8] = .ok (.leax 0xFB#8, []) ∧ decode [0x20#8, 0xFE#8] = .ok (.bra 0xFE#8, []) ∧
    decode [0x34#8, 0x06#8] = .ok (.pshs 0x06#8, []) ∧ decode [0x35#8, 0x81#8] = .ok (.puls 0x81#8, []) :=
  ⟨rfl, rfl, rfl, rfl, rfl, rfl⟩

/-- First register in bits 7:4, second in bits 3:0 (R62); every code of R159. -/
theorem test_decode_register_pairs :
    decode [0x1E#8, 0x89#8] = .ok (.exg .a .b, []) ∧ decode [0x1E#8, 0x15#8] = .ok (.exg .x .pc, []) ∧
    decode [0x1F#8, 0x01#8] = .ok (.tfr .d .x, []) ∧ decode [0x1F#8, 0x23#8] = .ok (.tfr .y .u, []) ∧
    decode [0x1F#8, 0x4A#8] = .ok (.tfr .sp .cc, []) ∧ decode [0x1F#8, 0xB6#8] = .ok (.tfr .dp (.unmapped 6#4), []) ∧
    decode [0x1F#8, 0x7C#8] = .ok (.tfr (.unmapped 7#4) (.unmapped 12#4), []) ∧
    decode [0x1F#8, 0xDE#8] = .ok (.tfr (.unmapped 13#4) (.unmapped 14#4), []) ∧
    decode [0x1F#8, 0xF8#8] = .ok (.tfr (.unmapped 15#4) .a, []) := ⟨rfl, rfl, rfl, rfl, rfl, rfl, rfl, rfl, rfl⟩

theorem test_decode_rejects :
    decode [0xFF#8] = .error (.unknownOpcode 0x00FF#16) ∧ decode [0x00#8, 0x12#8] = .error (.unknownOpcode 0x0000#16) ∧
    decode [0x10#8, 0x8E#8] = .error (.unknownOpcode 0x108E#16) ∧
    decode [0x11#8, 0x10#8] = .error (.unknownOpcode 0x1110#16) ∧ decode [] = .error .truncated ∧
    decode [0x10#8] = .error .truncated ∧ decode [0x86#8] = .error .truncated := ⟨rfl, rfl, rfl, rfl, rfl, rfl, rfl⟩

/-- Words as spec/opcode_table.json numbers them: a one-byte row, a two-byte row. -/
theorem test_decode_table_word :
    decodeTableWord 8 0x3D = some .mul ∧ decodeTableWord 16 0x1E89 = some (.exg .a .b) ∧
    decodeTableWord 16 0x1E00 = some (.exg .d .d) ∧ decodeTableWord 16 0xD7FF = some (.stb 0xFF#8) ∧
    decodeTableWord 8 0xFF = none := by decide

/-! ### One step each, from spec/95_test_vectors.md -/

theorem test_lda_v2 :
    let t := stepped (at_ { start with a := 0x33#8, cc := 0x0A#8 } 0x0000#16 [0x86#8, 0x00#8])
    t.a = 0x00#8 ∧ t.cc = 0x06#8 ∧ t.pc = 0x0002#16 ∧ t.instrCount = 1 := by decide

theorem test_lda_v3 :
    let t := stepped (at_ { start with cc := 0x06#8 } 0x0000#16 [0x86#8, 0x80#8])
    t.a = 0x80#8 ∧ t.cc = 0x0A#8 := by decide

theorem test_ldb_v4 :
    let t := stepped (at_ { start with cc := 0x0F#8 } 0x0000#16 [0xC6#8, 0x7F#8])
    t.b = 0x7F#8 ∧ t.cc = 0x03#8 ∧ t.a = 0x00#8 := by decide

theorem test_adda_v6 :
    let t := stepped (at_ { start with a := 0xFF#8 } 0x0000#16 [0x8B#8, 0x01#8])
    t.a = 0x00#8 ∧ t.cc = 0x25#8 := by decide

theorem test_adda_v7 :
    let t := stepped (at_ { start with a := 0x7F#8 } 0x0000#16 [0x8B#8, 0x01#8])
    t.a = 0x80#8 ∧ t.cc = 0x2A#8 := by decide

theorem test_addb_v13 :
    let t := stepped (at_ { start with b := 0xFF#8, a := 0x77#8 } 0x0000#16 [0xCB#8, 0x01#8])
    t.b = 0x00#8 ∧ t.cc = 0x25#8 ∧ t.a = 0x77#8 := by decide

theorem test_suba_v17 :
    let t := stepped (at_ { start with a := 0x7F#8 } 0x0000#16 [0x80#8, 0xFF#8])
    t.a = 0x80#8 ∧ t.cc = 0x0B#8 := by decide

theorem test_suba_v18 :
    let t := stepped (at_ { start with a := 0x42#8, cc := 0x20#8 } 0x0000#16 [0x80#8, 0x42#8])
    t.a = 0x00#8 ∧ t.cc = 0x24#8 := by decide

theorem test_subb_v21 :
    let t := stepped (at_ { start with b := 0x10#8, cc := 0x20#8 } 0x0000#16 [0xC0#8, 0x01#8])
    t.b = 0x0F#8 ∧ t.cc = 0x20#8 := by decide

theorem test_anda_v22 :
    let t := stepped (at_ { start with a := 0xF0#8, cc := 0x03#8 } 0x0000#16 [0x84#8, 0x3C#8])
    t.a = 0x30#8 ∧ t.cc = 0x03#8 := by decide

theorem test_andb_v28 :
    let t := stepped (at_ { start with b := 0xFF#8 } 0x0000#16 [0xC4#8, 0x80#8])
    t.b = 0x80#8 ∧ t.cc = 0x08#8 := by decide

theorem test_ora_v25 :
    let t := stepped (at_ { start with cc := 0x0B#8 } 0x0000#16 [0x8A#8, 0x00#8])
    t.a = 0x00#8 ∧ t.cc = 0x07#8 := by decide

theorem test_orb_v29 :
    let t := stepped (at_ { start with b := 0x0F#8, cc := 0x01#8 } 0x0000#16 [0xCA#8, 0xF0#8])
    t.b = 0xFF#8 ∧ t.cc = 0x09#8 := by decide

theorem test_eora_v27 :
    let t := stepped (at_ { start with a := 0xAA#8 } 0x0000#16 [0x88#8, 0x55#8])
    t.a = 0xFF#8 ∧ t.cc = 0x08#8 := by decide

theorem test_eorb_v30 :
    let t := stepped (at_ { start with b := 0x12#8, cc := 0x08#8 } 0x0000#16 [0xC8#8, 0x12#8])
    t.b = 0x00#8 ∧ t.cc = 0x04#8 := by decide

theorem test_inca_v31 :
    let t := stepped (at_ { start with a := 0xFF#8, cc := 0x01#8 } 0x0000#16 [0x4C#8])
    t.a = 0x00#8 ∧ t.cc = 0x05#8 ∧ t.pc = 0x0001#16 := by decide

theorem test_inca_v32 :
    let t := stepped (at_ { start with a := 0x7F#8 } 0x0000#16 [0x4C#8])
    t.a = 0x80#8 ∧ t.cc = 0x08#8 := by decide

theorem test_deca_v34 :
    let t := stepped (at_ start 0x0000#16 [0x4A#8])
    t.a = 0xFF#8 ∧ t.cc = 0x08#8 := by decide

theorem test_incb_v37 :
    let t := stepped (at_ { start with b := 0xFE#8 } 0x0000#16 [0x5C#8])
    t.b = 0xFF#8 ∧ t.cc = 0x08#8 := by decide

theorem test_decb_v38 :
    let t := stepped (at_ { start with cc := 0x21#8 } 0x0000#16 [0x5A#8])
    t.b = 0xFF#8 ∧ t.cc = 0x29#8 := by decide

theorem test_mul_v39 :
    let t := stepped (at_ { start with a := 0xFF#8, b := 0xFF#8 } 0x0000#16 [0x3D#8])
    t.a = 0xFE#8 ∧ t.b = 0x01#8 ∧ t.cc = 0x08#8 := by decide

theorem test_mul_v42 :
    let t := stepped (at_ { start with b := 0x55#8, cc := 0x03#8 } 0x0000#16 [0x3D#8])
    t.a = 0x00#8 ∧ t.b = 0x00#8 ∧ t.cc = 0x07#8 := by decide

theorem test_sta_v45 :
    let t := stepped (at_ { start with a := 0x80#8, dp := 0x20#8, cc := 0x02#8 } 0x0000#16 [0x97#8, 0x10#8])
    t.rawRead 0x2010#16 = 0x80#8 ∧ t.cc = 0x0A#8 := by decide

/-- V47: the store overwrites its own operand byte after it was fetched. -/
theorem test_sta_v47 :
    let t := stepped (at_ { start with a := 0x12#8 } 0x0000#16 [0x97#8, 0x01#8])
    t.rawRead 0x0001#16 = 0x12#8 ∧ t.pc = 0x0002#16 ∧ t.cc = 0x00#8 := by decide

theorem test_stb_v46 :
    let t := stepped (at_ { start with dp := 0x12#8, cc := 0x08#8 } 0x0000#16 [0xD7#8, 0xFF#8])
    t.rawRead 0x12FF#16 = 0x00#8 ∧ t.cc = 0x04#8 := by decide

theorem test_leax_v49 :
    let t := stepped (at_ { start with x := 0x1000#16 } 0x0000#16 [0x30#8, 0xFB#8])
    t.x = 0x0FFB#16 ∧ t.cc = 0x00#8 ∧ t.lastEa = 0x0FFB#16 ∧ t.lastPostbyte = 0xFB#8 := by decide

theorem test_leax_v52 :
    let t := stepped (at_ { start with x := 0xFFFF#16, cc := 0x03#8 } 0x0000#16 [0x30#8, 0x01#8])
    t.x = 0x0000#16 ∧ t.cc = 0x07#8 := by decide

theorem test_bra_v57 : (stepped (at_ start 0x0000#16 [0x20#8, 0x80#8])).pc = 0xFF82#16 := by decide

theorem test_bra_v58 : (stepped (at_ { start with pc := 0xFFFE#16 } 0xFFFE#16 [0x20#8, 0x7F#8])).pc = 0x007F#16 := by
  decide

theorem test_rts_v59 :
    let t := stepped (at_ (at_ { start with pc := 0x8000#16, sp := 0xFEFE#16 } 0x8000#16 [0x39#8]) 0xFEFE#16
      [0x90#8, 0x12#8])
    t.pc = 0x9012#16 ∧ t.sp = 0xFF00#16 := by decide

theorem test_pshs_v67 :
    let t := stepped (at_ { start with sp := 0xFF00#16, a := 0x11#8, b := 0x22#8 } 0x0000#16 [0x34#8, 0x06#8])
    t.rawRead 0xFEFF#16 = 0x22#8 ∧ t.rawRead 0xFEFE#16 = 0x11#8 ∧ t.sp = 0xFEFE#16 := by decide

theorem test_pshs_v70 :
    let t := stepped (at_ { start with sp := 0xFF00#16, pc := 0x8000#16 } 0x8000#16 [0x34#8, 0x80#8])
    t.rawRead 0xFEFF#16 = 0x02#8 ∧ t.rawRead 0xFEFE#16 = 0x80#8 ∧ t.sp = 0xFEFE#16 := by decide

theorem test_puls_v68 :
    let t := stepped (at_ (at_ { start with sp := 0xFEFE#16 } 0x0000#16 [0x35#8, 0x06#8]) 0xFEFE#16 [0x11#8, 0x22#8])
    t.a = 0x11#8 ∧ t.b = 0x22#8 ∧ t.sp = 0xFF00#16 ∧ t.cc = 0x00#8 := by decide

theorem test_puls_v71 :
    let t := stepped (at_ (at_ { start with sp := 0xFEFE#16 } 0x0000#16 [0x35#8, 0x80#8]) 0xFEFE#16 [0x90#8, 0x12#8])
    t.pc = 0x9012#16 ∧ t.sp = 0xFF00#16 := by decide

theorem test_exg_v76 :
    let t := stepped (at_ { start with a := 0x12#8, b := 0x34#8 } 0x0000#16 [0x1E#8, 0x08#8])
    t.a = 0x34#8 ∧ t.b = 0x12#8 := by decide

theorem test_exg_v79 :
    let t := stepped (at_ { start with x := 0x9000#16, pc := 0x8000#16 } 0x8000#16 [0x1E#8, 0x15#8])
    t.x = 0x8002#16 ∧ t.pc = 0x9000#16 := by decide

theorem test_tfr_v81 :
    let t := stepped (at_ { start with x := 0x12FE#16 } 0x0000#16 [0x1F#8, 0x18#8])
    t.a = 0xFE#8 ∧ t.x = 0x12FE#16 := by decide

theorem test_tfr_v84 : (stepped (at_ { start with a := 0x55#8 } 0x0000#16 [0x1F#8, 0x68#8])).a = 0x00#8 := by decide

theorem test_nop_v90 :
    let t := stepped (at_ start 0x0000#16 [0x12#8])
    t.pc = 0x0001#16 ∧ t.instrCount = 1 ∧ t.cc = 0x00#8 := by decide

theorem test_sync_v91 :
    let t := stepped (at_ start 0x0000#16 [0x13#8])
    t.runState = .halted ∧ t.pc = 0x0001#16 ∧ t.instrCount = 1 ∧ t.faultRecord = none := by decide

/-- V61, from the frame V60 leaves. -/
theorem test_rti_v61 :
    let t := stepped (at_ (at_ { start with pc := 0x9000#16, sp := 0xFEF4#16, cc := 0x95#8 } 0x9000#16 [0x3B#8])
      0xFEF4#16 [0x85#8, 0x56#8, 0x34#8, 0x12#8, 0x9A#8, 0xBC#8, 0x56#8, 0x78#8, 0x12#8, 0x34#8, 0x80#8, 0x02#8])
    t.cc = 0x85#8 ∧ t.d = 0x5634#16 ∧ t.dp = 0x12#8 ∧ t.x = 0x9ABC#16 ∧ t.y = 0x5678#16 ∧ t.u = 0x1234#16 ∧
      t.pc = 0x8002#16 ∧ t.sp = 0xFF00#16 := by decide

/-! ### The sequencer, the interrupt, the device -/

/-- The state of V60 before the request. -/
def beforeInterrupt : State :=
  at_ { start with sp := 0xFF00#16, pc := 0x8002#16, u := 0x1234#16, y := 0x5678#16, x := 0x9ABC#16, dp := 0x12#8,
                   b := 0x34#8, a := 0x56#8, cc := 0x05#8 } 0xFFF8#16 [0x90#8]

theorem test_interrupt_v60 :
    let t := stepped beforeInterrupt.triggerIRQ
    t.sp = 0xFEF4#16 ∧ t.cc = 0x95#8 ∧ t.pc = 0x9000#16 ∧ t.irqPending = false ∧ t.instrCount = 0 ∧
      t.rawRead 0xFEF4#16 = 0x85#8 ∧ t.rawRead 0xFEF8#16 = 0x9A#8 ∧ t.rawRead 0xFEFD#16 = 0x34#8 ∧
      t.rawRead 0xFEFF#16 = 0x02#8 := by decide

/-- V65: the frame overwrites the vector. -/
theorem test_interrupt_over_vector_v65 :
    let t := stepped (at_ { start with pc := 0x8000#16, y := 0x4321#16 } 0xFFF8#16 [0x90#8]).triggerIRQ
    t.sp = 0xFFF2#16 ∧ t.pc = 0x4321#16 ∧ t.cc = 0x90#8 ∧ t.rawRead 0xFFF2#16 = 0x80#8 := by decide

theorem test_masked_request_v63 : { start with cc := 0x10#8 }.triggerIRQ.irqPending = false := by decide

theorem test_unknown_opcode_v92 :
    let t := stepped start
    t.runState = .halted ∧ t.pc = 0x0001#16 ∧ t.faultRecord = some { key := 0x0000#16, addr := 0x0000#16 } ∧
      t.instrCount = 0 := by decide

theorem test_prefixed_opcode_v95 :
    let t := stepped (at_ { start with pc := 0xFFFF#16 } 0xFFFF#16 [0x10#8, 0x86#8])
    t.runState = .halted ∧ t.pc = 0x0001#16 ∧ t.faultRecord = some { key := 0x1086#16, addr := 0xFFFF#16 } := by decide

theorem test_breakpoint_v96 :
    let t := stepped (at_ ({ start with pc := 0x8000#16 }.addBreakpoint 0x18000) 0x8000#16 [0x12#8])
    t.pc = 0x8000#16 ∧ t.instrCount = 0 := by decide

/-- V99: WAI waits, with PC past it and nothing pushed. -/
theorem test_wai_v99 :
    let t := stepped (at_ { startKbd with sp := 0xFF00#16, pc := 0x8000#16 } 0x8000#16 [0x3E#8])
    t.runState = .waitingForInterrupt ∧ t.pc = 0x8001#16 ∧ t.instrCount = 1 ∧ t.sp = 0xFF00#16 := by decide

/-- V99: the waiting core wakes for a request. -/
theorem test_wake_v99 :
    let t := stepped (at_ { startKbd with sp := 0xFF00#16, pc := 0x8001#16, runState := .waitingForInterrupt }
      0xFFF8#16 [0x90#8]).triggerIRQ
    t.runState = .running ∧ t.pc = 0x9000#16 ∧ t.sp = 0xFEF4#16 ∧ t.cc = 0x90#8 ∧ t.rawRead 0xFEFF#16 = 0x01#8 := by
  decide

/-- V100: the arrival of 0x41 and the two ports. -/
theorem test_device_v100 :
    let t := startKbd.inputArrival 0x41#8
    (startKbd.memRead 0xFEF3#16).1 = 0x00#8 ∧ t.irqPending = true ∧ (t.memRead 0xFEF3#16).1 = 0x01#8 ∧
      (t.memRead 0xFEF2#16).1 = 0x41#8 ∧ (t.memRead 0xFEF2#16).2.kbdPending = false ∧
      ((t.memWrite 0xFEF2#16 0x99#8).memRead 0xFEF2#16).1 = 0x41#8 := by decide

/-- S1: address and value are masked. -/
theorem test_memory_s1 :
    (start.hostWriteByte 0x10 0x1234).hostReadByte 0x10 = 0x34#8 ∧
      (start.hostWriteByte 0x10000 0xAB).hostReadByte 0 = 0xAB#8 ∧
      ((start.memWriteWord 0xFFFF#16 0xBEEF#16).memReadWord 0xFFFF#16).1 = 0xBEEF#16 := by decide

/-- The placed word of each length is run by the next step. -/
theorem test_withFetchWord :
    (stepped (State.reset.withFetchWord 8 0x4C)).a = 0x01#8 ∧
      (stepped (State.reset.withFetchWord 16 0x8680)).a = 0x80#8 := by decide

/-! ### Witnesses: for each obligation with hypotheses, a state and operands that meet all of them, each clause at a boundary -/

theorem start_canonical : Memory.wf start.mem := by decide

theorem startKbd_canonical : Memory.wf startKbd.mem := by decide

/-- A NOP at 0xFFFF with an unmapped byte after it, reached with a device attached. -/
def atNop : State := at_ { startKbd with pc := 0xFFFF#16 } 0xFFFF#16 [0x12#8, 0xFF#8]

theorem atNop_fetches : atNop.fetches := ⟨by decide, by decide, by decide⟩

theorem witness_DecodeOfEncodeIsTheInstruction :
    (Instr.exg .dp (.unmapped 15#4)).wf = true ∧ (Instr.tfr (.unmapped 6#4) .d).wf = true ∧ Instr.rti.wf = true := by
  decide

theorem witness_EncodeOfDecodeIsTheBytes :
    decode [0x1E#8, 0xBF#8, 0x12#8] = .ok (.exg .dp (.unmapped 15#4), [0x12#8]) ∧
      decode [0x12#8, 0x12#8] = .ok (.nop, [0x12#8]) := ⟨rfl, rfl⟩

theorem witness_KeyIsOpcodeOrPrefixedByte :
    (at_ start 0x0000#16 [0x10#8]).rawRead 0x0000#16 = 0x10#8 ∧
      (at_ start 0x0000#16 [0x11#8]).rawRead 0x0000#16 = 0x11#8 ∧
      ¬ (start.rawRead 0x0000#16 = 0x10#8 ∨ start.rawRead 0x0000#16 = 0x11#8) := by decide

theorem witness_MemoryReadAfterWrite :
    Memory.wf start.mem ∧ (0 : Int) % 65536 = 65536 % 65536 ∧ (65535 : Int) % 65536 ≠ 65536 % 65536 := by decide

theorem witness_WordWriteIsTwoByteWrites :
    Memory.wf start.mem ∧ (0x0001#16 ≠ 0xFFFF#16 ∧ 0x0001#16 ≠ 0xFFFF#16 + 1#16) := by decide

theorem witness_DeviceInterceptsReadsOnly :
    Memory.wf start.mem ∧ start.params.kbd = none ∧
      startKbd.params.kbd = some { dataAddr := 0xFEF2#16, statusAddr := 0xFEF3#16 } ∧ (0xFEF3#16 ≠ 0xFEF2#16) ∧
      (0xFEF4#16 ≠ 0xFEF2#16 ∧ 0xFEF4#16 ≠ 0xFEF3#16) := by decide

/-- Two bytes loaded at 0xFFFF, the second wrapping to 0x0000; 0xFFFE is outside. -/
theorem witness_LoadedProgramLiesInMemory :
    Memory.wf start.mem ∧ [0x86#8, 0x01#8].length ≤ 65536 ∧ 1 < [0x86#8, 0x01#8].length ∧
      ∀ k : Nat, k < [0x86#8, 0x01#8].length → (0xFFFE : Int) % 65536 ≠ (0xFFFF + k) % 65536 := by
  refine ⟨start_canonical, by decide, by decide, fun k hk => ?_⟩
  simp only [List.length_cons, List.length_nil] at hk
  omega

theorem witness_RegisterCodesReadBackWhatWasWritten :
    regOverlaps .d .x = false ∧ regOverlaps .a .b = false ∧ regOverlaps (.unmapped 6#4) .pc = false ∧
      regOverlaps .d .b = true := by decide

theorem witness_DirectStoreResult :
    Memory.wf startKbd.mem ∧ 0x0011#16 ≠ startKbd.directAddrOf 0x10#8 := by decide

theorem witness_PushAndPopByte : Memory.wf start.mem ∧ start.sp ≠ start.sp - 1#16 := by decide

/-- A word pushed just above the ports. -/
theorem witness_PushedWordComesBack :
    Memory.wf startKbd.mem ∧ { startKbd with sp := 0xFEF6#16 }.noPortIn (0xFEF6#16 - 2#16) 2 := by
  refine ⟨startKbd_canonical, ?_⟩
  rintro _ ⟨⟩
  decide

/-- A full frame and an empty one, each with an address outside it. -/
theorem witness_PushRegistersResult :
    Memory.wf start.mem ∧ frameSize 0xFF#8 = 12 ∧ frameSize 0x00#8 = 0 ∧
      (∀ k, k < frameSize 0xFF#8 → start.sp ≠ offsetAddr (start.sp - BitVec.ofNat 16 (frameSize 0xFF#8)) k) := by decide

/-- Every clause on an unselected register, with the mask that selects none, and a popped byte with the full mask. -/
theorem witness_PullRegistersResult :
    (∀ n, n < 8 → (0x00#8).getLsbD n = false) ∧ 11 < frameSize 0xFF#8 := by decide

/-- A full frame whose lowest byte lies just above the ports. -/
theorem witness_PullAfterPushRestoresEverything :
    Memory.wf startKbd.mem ∧
      { startKbd with sp := 0xFF00#16 }.noPortIn (0xFF00#16 - BitVec.ofNat 16 (frameSize 0xFF#8)) (frameSize 0xFF#8) := by
  refine ⟨startKbd_canonical, ?_⟩
  rintro _ ⟨⟩
  decide

theorem witness_ExchangeRegistersResult :
    regOverlaps .a .x = false ∧ (regOverlaps .a .dp = false ∧ regOverlaps .x .dp = false) ∧
      regOverlaps (.unmapped 7#4) .pc = false := by decide

theorem witness_TransferRegisterResult :
    regOverlaps .d .u = false ∧ regOverlaps .pc .a = false ∧ regOverlaps (.unmapped 12#4) .a = false := by decide

theorem witness_NopChangesNothing : atNop.fetches ∧ atNop.rawRead atNop.pc = 0x12#8 := ⟨atNop_fetches, by decide⟩

/-- WAIT_OPCODE at address 0xFFFF. -/
theorem witness_WaitOpcodeWaits :
    let s := at_ { startKbd with pc := 0xFFFF#16 } 0xFFFF#16 [0x3E#8]
    s.fetches ∧ s.rawRead s.pc = 0x3E#8 ∧ s.params.waitOpcode = some (byteKey 0x3E#8) ∧
      waitKeyLegal (byteKey 0x3E#8) = true := ⟨⟨by decide, by decide, by decide⟩, by decide, by decide, by decide⟩

theorem witness_StepRunsTheDecodedInstruction :
    atNop.fetches ∧ decode atNop.bytesAtPc = .ok (.nop, [0xFF#8]) := ⟨atNop_fetches, rfl⟩

/-- An unmapped byte, and an unmapped prefixed key whose second byte wraps to 0x0000. -/
theorem witness_UnknownOpcodeHaltsTheCore :
    (start.fetches ∧ start.rawRead start.pc ≠ 0x10#8 ∧ start.rawRead start.pc ≠ 0x11#8 ∧
      lookupKey (byteKey (start.rawRead start.pc)) = none ∧
      start.params.waitOpcode ≠ some (byteKey (start.rawRead start.pc))) ∧
    (let s := at_ { startKbd with pc := 0xFFFF#16 } 0xFFFF#16 [0x11#8, 0x10#8];
      s.fetches ∧ s.rawRead s.pc = 0x11#8 ∧ lookupKey (escapedKey 0x11#8 (s.rawRead (s.pc + 1#16))) = none ∧
      s.params.waitOpcode ≠ some (escapedKey 0x11#8 (s.rawRead (s.pc + 1#16)))) :=
  ⟨⟨⟨by decide, by decide, by decide⟩, by decide, by decide, rfl, by decide⟩,
    ⟨⟨by decide, by decide, by decide⟩, by decide, rfl, by decide⟩⟩

theorem witness_HaltedStepChangesNothing :
    { start with runState := .halted, irqPending := true }.runState = .halted := rfl

theorem witness_WaitingCoreWakesOnlyForARequest :
    ({ startKbd with runState := .waitingForInterrupt }.runState = .waitingForInterrupt ∧
      { startKbd with runState := .waitingForInterrupt }.irqPending = false) ∧
    { startKbd with runState := .waitingForInterrupt, irqPending := true }.irqPending = true := by decide

/-- A breakpoint at 0xFFFF: stalled there, interrupted there, and not stalled one address on. -/
theorem witness_BreakpointStallsTheCore :
    let s := { start with breakpoints := [0xFFFF#16], pc := 0xFFFF#16 }
    (s.runState = .running ∧ s.pc ∈ s.breakpoints ∧ s.irqPending = false) ∧
      ({ s with irqPending := true }.pc ∈ s.breakpoints ∧ { s with irqPending := true }.irqPending = true) ∧
      ({ s with pc := 0x0000#16 }.pc ∉ s.breakpoints ∧ { s with pc := 0x0000#16 }.irqPending = false) := by decide

/-- A one-byte instruction at 0xFFFF, and the masks and registers at the edge of each case. -/
theorem witness_PcIsPastTheInstruction :
    atNop.fetches ∧ decode atNop.bytesAtPc = .ok (.nop, [0xFF#8]) ∧ (∃ t, step atNop = .next t) ∧
      (0x7F#8).getLsbD 7 = false ∧ (RegCode.x ≠ .pc ∧ RegCode.d ≠ .pc) :=
  ⟨atNop_fetches, rfl, ⟨_, rfl⟩, by decide, by decide⟩

theorem witness_IntrospectionIsZeroButForLeax :
    (atNop.fetches ∧ decode atNop.bytesAtPc = .ok (.nop, [0xFF#8]) ∧ ∃ t, step atNop = .next t) ∧
    (let s := at_ start 0x0000#16 [0x30#8, 0x80#8];
      s.fetches ∧ decode s.bytesAtPc = .ok (.leax 0x80#8, []) ∧ ∃ t, step s = .next t) :=
  ⟨⟨atNop_fetches, rfl, ⟨_, rfl⟩⟩, ⟨⟨by decide, by decide, by decide⟩, rfl, ⟨_, rfl⟩⟩⟩

/-- A step that clears the request, and one that writes the fault record. -/
theorem witness_SystemStateChangesOnlyInItsCase :
    (∃ t, step beforeInterrupt.triggerIRQ = .next t ∧ t.irqPending ≠ beforeInterrupt.triggerIRQ.irqPending) ∧
      ∃ t, step start = .next t ∧ t.faultRecord ≠ start.faultRecord :=
  ⟨⟨_, rfl, by decide⟩, ⟨_, rfl, by decide⟩⟩

theorem witness_PlacedWordIsRunNext :
    Memory.wf State.reset.mem ∧ decodeTableWord 16 0x1FF0 = some (.tfr (.unmapped 15#4) .d) ∧
      decodeTableWord 8 0x3B = some .rti := by decide

theorem witness_TriggerIsAcceptedOnlyUnmasked :
    { start with cc := 0x10#8 }.getFlag .i = true ∧
      ({ start with cc := 0xEF#8 }.getFlag .i = false ∧ { start with cc := 0xEF#8 }.runState ≠ .halted) ∧
      { start with runState := .halted }.getFlag .i = false := by decide

theorem witness_MaskedRequestIsLost :
    let s := { start with cc := 0x10#8 }
    s.getFlag .i = true ∧ s.irqPending = false ∧ ∃ t, Host.Core.run Sys2Proof.core 1 s.triggerIRQ = .next t :=
  ⟨by decide, by decide, ⟨_, rfl⟩⟩

/-- A running core, a waiting one, and an address outside the frame (the old SP). -/
theorem witness_InterruptEntryResult :
    (Memory.wf beforeInterrupt.mem ∧ beforeInterrupt.triggerIRQ.runState ≠ .halted ∧
      beforeInterrupt.triggerIRQ.irqPending = true) ∧
    { startKbd with runState := .waitingForInterrupt }.runState ≠ .halted ∧
    ∀ k, k < 12 → beforeInterrupt.sp ≠ offsetAddr (beforeInterrupt.sp - 12#16) k := by decide

/-- The frame of V60 with the ports just below it. -/
theorem witness_ReturnUndoesInterruptEntry :
    let s := { startKbd with sp := 0xFF00#16, irqPending := true }
    Memory.wf s.mem ∧ s.runState ≠ .halted ∧ s.irqPending = true ∧ s.noPortIn (s.sp - 12#16) 12 := by
  refine ⟨startKbd_canonical, by decide, rfl, ?_⟩
  rintro _ ⟨⟩
  decide

/-- One state for each row of the table: halted, waiting, requested, stalled, executing SYNC, at an unmapped key, at the
wait opcode. -/
theorem witness_RunStatesChangeAsTheTableSays :
    (∃ t, step { start with runState := .halted } = .next t) ∧
    (∃ t, step { startKbd with runState := .waitingForInterrupt } = .next t) ∧
    (∃ t, step beforeInterrupt.triggerIRQ = .next t) ∧
    (∃ t, step { start with breakpoints := [0x0000#16] } = .next t) ∧
    (let s := at_ start 0x0000#16 [0x13#8];
      s.fetches ∧ decode s.bytesAtPc = .ok (.sync, [0x00#8]) ∧ ∃ t, step s = .next t) ∧
    (start.fetches ∧ decode start.bytesAtPc = .error (.unknownOpcode 0x0000#16) ∧ ∃ t, step start = .next t) ∧
    (let s := at_ startKbd 0x0000#16 [0x3E#8];
      s.fetches ∧ decode s.bytesAtPc = .error (.unknownOpcode 0x003E#16) ∧ s.params.waitOpcode = some 0x003E#16) :=
  ⟨⟨_, rfl⟩, ⟨_, rfl⟩, ⟨_, rfl⟩, ⟨_, rfl⟩, ⟨⟨by decide, by decide, by decide⟩, rfl, ⟨_, rfl⟩⟩,
    ⟨⟨by decide, by decide, by decide⟩, rfl, ⟨_, rfl⟩⟩, ⟨⟨by decide, by decide, by decide⟩, rfl, by decide⟩⟩

/-- A halted core and transactions of every kind but reset. -/
theorem witness_HaltedUntilReset :
    let s := { startKbd with runState := .halted }
    let ts := [Transaction.step, .triggerIRQ, .writeReg .pc 0x8000, .writeByte 0x8000 0x12, .loadProgram 0x9000 [0x12#8],
      .addBreakpoint 0x8000, .removeBreakpoint 0x8000, .inputArrival 0x41#8, .step]
    s.runState = .halted ∧ Transaction.reset ∉ ts ∧ ∃ t, transactAll ts s = .next t :=
  ⟨rfl, by decide, ⟨_, rfl⟩⟩

theorem witness_ArrivingByteIsBufferedAndRequests :
    startKbd.params.kbd = some { dataAddr := 0xFEF2#16, statusAddr := 0xFEF3#16 } ∧
      (0xFEF1#16 ≠ 0xFEF2#16 ∧ 0xFEF1#16 ≠ 0xFEF3#16) := by decide

theorem witness_BreakpointsAreASetOfMaskedAddresses :
    BitVec.ofInt 16 0x18000 ∉ start.breakpoints ∧
      { start with breakpoints := [0x0000#16, 0x8000#16, 0xFFFF#16] }.breakpoints.Pairwise (· < ·) := by decide

theorem witness_OnlyWholeCcReadersReadFlags :
    (∃ t, exec (.adda 0x01#8) start = .next t) ∧ ∃ t, exec .rti start = .next t := ⟨⟨_, rfl⟩, ⟨_, rfl⟩⟩

theorem start_inv : start.Inv :=
  ⟨⟨start_canonical, by decide⟩, fun _ h => (nomatch h), fun h => (nomatch h)⟩

/-- A halted core whose fault record says so, and a waiting one. -/
theorem witness_StepKeepsTheInvariant :
    (start.Inv ∧ ∃ t, step start = .next t) ∧
    ({ start with runState := .halted, faultRecord := some { key := 0x00FF#16, addr := 0x4000#16 } } : State).Inv ∧
    ({ startKbd with runState := .waitingForInterrupt } : State).Inv := by
  refine ⟨⟨start_inv, ⟨_, rfl⟩⟩, ⟨⟨start_canonical, by decide⟩, ?_, fun h => (nomatch h)⟩,
    ⟨⟨startKbd_canonical, by decide⟩, fun _ h => (nomatch h), fun _ h => (nomatch h)⟩⟩
  rintro _ ⟨⟩
  exact ⟨rfl, rfl, nofun⟩

theorem witness_TransactionsKeepTheInvariant :
    start.Inv ∧ ∃ t, transactAll [.loadProgram 0x0000 [0x12#8], .step, .triggerIRQ, .step, .reset] start = .next t :=
  ⟨start_inv, ⟨_, rfl⟩⟩

end Sys2Proof.Tests
end

/-! SUPPORT. The core's invariant (`State.Inv`) along every sequence of transactions (00_scope.md R6 and section 6.8).
The one idea is that a fault record stands only in a halted core: whatever moves the run state starts from a core
that is not halted, so it has no record to account for. -/

namespace Sys2Proof.Machine

/-! ### When the invariant carries over -/

/-- A core that is not halted reports no fault (R181, R188). -/
theorem State.Inv.faultRecord_eq_none {s : State} (h : s.Inv) (hr : s.runState ≠ .halted) : s.faultRecord = none :=
  Option.eq_none_iff_forall_ne_some.2 fun r hs => hr (h.faultRecordSound r hs).1

/-- The invariant speaks of memory, the breakpoints, the run state, the fault record and the parameters only. -/
theorem State.Inv.of_same_system {s t : State} (h : s.Inv) (hc : t.canonical) (hr : t.runState = s.runState)
    (hf : t.faultRecord = s.faultRecord) (hp : t.params = s.params) : t.Inv where
  canonical := hc
  faultRecordSound := by simpa only [State.faultRecordSound, hf, hr, hp] using h.faultRecordSound
  waitingSound := by simpa only [State.waitingSound, hr, hp] using h.waitingSound

/-- Without a fault record only the waiting state has to be accounted for. -/
theorem State.Inv.of_no_fault {t : State} (hc : t.canonical) (hf : t.faultRecord = none)
    (hw : t.waitingSound) : t.Inv where
  canonical := hc
  faultRecordSound r hr := by simp [hf] at hr
  waitingSound := hw

/-! ### What a step that fetches can do -/

@[simp] theorem fetched_keeps (s : State) (n : Nat) :
    (s.fetched n).mem = s.mem ∧ (s.fetched n).runState = s.runState ∧ (s.fetched n).breakpoints = s.breakpoints ∧
    (s.fetched n).faultRecord = s.faultRecord ∧ (s.fetched n).params = s.params :=
  ⟨rfl, rfl, rfl, rfl, rfl⟩

/-- The three endings of a step that reaches the fetch: an executed instruction, the wait opcode, an unknown opcode
(R71, R88, R89). -/
theorem runInstruction_cases {s t : State} (h : s.runInstruction = .next t) :
    (∃ i n u, exec i (s.fetched n) = .next u ∧ t = u.countInstruction) ∨
    (∃ key n, s.params.waitOpcode = some key ∧
      t = { s.fetched n with runState := .waitingForInterrupt }.countInstruction) ∨
    (∃ key n, lookupKey key = none ∧ s.params.waitOpcode ≠ some key ∧
      t = (s.fetched n).raiseUnknownOpcode key s.pc) := by
  rcases decode_bytesAtPc s with ⟨i, rest, hd⟩ | ⟨key, hd⟩
  · rw [runInstruction_of_decode hd] at h
    obtain ⟨u, hu, rfl⟩ := counted_next h
    exact .inl ⟨i, _, u, hu, rfl⟩
  · obtain ⟨hl, n, -, -, hrun⟩ := runInstruction_of_unknown hd
    rw [hrun] at h
    split at h
    · cases h; exact .inr (.inl ⟨key, n, ‹_›, rfl⟩)
    · cases h; exact .inr (.inr ⟨key, n, hl, ‹_›, rfl⟩)

/-! ### One step -/

/-- Taking the interrupt keeps the invariant, from a core that is not halted (R185). -/
theorem serviceInterrupt_inv {s : State} (h : s.Inv) (hr : s.runState ≠ .halted) : s.serviceInterrupt.Inv := by
  obtain ⟨hmem, hbp⟩ := h.canonical
  rw [serviceInterrupt_eq]
  exact .of_no_fault ⟨(serviceInterrupt_pushed s hmem).wf, hbp⟩ (h.faultRecord_eq_none hr) nofun

/-- A step that reaches the fetch keeps the invariant (R87 to R90). -/
theorem runInstruction_inv {s t : State} (h : s.Inv) (hs : s.fetches) (ht : s.runInstruction = .next t) : t.Inv := by
  have hnone : s.faultRecord = none := h.faultRecord_eq_none (by simp [hs.running])
  obtain ⟨hmem, hbp⟩ := h.canonical
  rcases runInstruction_cases ht with ⟨i, n, u, hu, rfl⟩ | ⟨key, n, hw, rfl⟩ | ⟨key, n, hl, hw, rfl⟩
  · obtain ⟨hk, hrun⟩ := exec_keepsSystem hu
    have hwf : Memory.wf u.mem := exec_wf hu hmem
    have hwait : u.runState ≠ .waitingForInterrupt := by
      rw [hrun]
      split <;> simp [hs.running]
    exact .of_no_fault ⟨hwf, by simpa [hk.breakpoints] using hbp⟩ (by simpa [hk.faultRecord] using hnone)
      fun hw => absurd (by simpa using hw) hwait
  · exact .of_no_fault ⟨hmem, hbp⟩ hnone fun _ => by simp [hw]
  · refine ⟨⟨hmem, hbp⟩, ?_, nofun⟩
    rintro _ ⟨⟩
    exact ⟨rfl, hl, hw⟩

/-- A step keeps the invariant (R82, R188). -/
theorem step_inv {s t : State} (h : s.Inv) (ht : step s = .next t) : t.Inv := by
  rcases step_cases s with ⟨hs, -⟩ | ⟨hr, -, hs⟩ | ⟨hf, hs⟩ <;> rw [hs] at ht
  · cases ht; exact h
  · cases ht; exact serviceInterrupt_inv h hr
  · exact runInstruction_inv h hf ht

/-- No step changes the parameters (log 1). -/
theorem step_params {s t : State} (ht : step s = .next t) : t.params = s.params := by
  rcases step_cases s with ⟨hs, -⟩ | ⟨-, -, hs⟩ | ⟨-, hs⟩ <;> rw [hs] at ht
  · cases ht; rfl
  · cases ht; simp [serviceInterrupt_eq]
  · rcases runInstruction_cases ht with ⟨i, n, u, hu, rfl⟩ | ⟨key, n, -, rfl⟩ | ⟨key, n, -, -, rfl⟩
    · simpa using (exec_keepsSystem hu).1.params
    · rfl
    · rfl

/-! ### The other transactions -/

/-- `reset()` makes the invariant hold, from any state (R220). -/
theorem hostReset_inv (s : State) : s.hostReset.Inv :=
  .of_no_fault ⟨⟨.nil, nofun⟩, .nil⟩ rfl nofun

/-- An interrupt request keeps the invariant (R182). -/
theorem triggerIRQ_inv {s : State} (h : s.Inv) : s.triggerIRQ.Inv :=
  triggerIRQ_eq s ▸ h.of_same_system h.canonical rfl rfl rfl

/-- The breakpoint list stays strictly rising (R21, R200). -/
theorem addBreakpoint_inv {s : State} (h : s.Inv) (a : Int) : (s.addBreakpoint a).Inv :=
  h.of_same_system ⟨h.canonical.1, insertAddr_sorted _ _ h.canonical.2⟩ rfl rfl rfl

theorem removeBreakpoint_inv {s : State} (h : s.Inv) (a : Int) : (s.removeBreakpoint a).Inv :=
  h.of_same_system ⟨h.canonical.1, h.canonical.2.filter _⟩ rfl rfl rfl

/-- Memory stays canonical under a write of one cell (R18, R41). -/
theorem rawWrite_inv {s : State} (h : s.Inv) (addr : Word) (v : Byte) : (s.rawWrite addr v).Inv :=
  h.of_same_system ⟨rawWrite_wf s addr v h.canonical.1, h.canonical.2⟩ rfl rfl rfl

theorem storeBytes_inv {s : State} (h : s.Inv) (base : Word) (bytes : List Byte) : (s.storeBytes base bytes).Inv := by
  induction bytes generalizing s base with
  | nil => exact h
  | cons b rest ih => exact ih (rawWrite_inv h base b) _

theorem writeReg_inv {s : State} (h : s.Inv) (r : RegCode) (v : Word) : (s.writeReg r v).Inv := by
  obtain ⟨hk, hr, hm⟩ := (writeReg_same s r v).keeps
  exact h.of_same_system (by simpa only [State.canonical, hm, hk.breakpoints] using h.canonical)
    hr hk.faultRecord hk.params

/-- What the device leaves at its ports keeps the invariant, whatever it is (R197). -/
theorem publish_inv {s : State} (h : s.Inv) (ports : KbdPorts) : (s.publish ports).Inv := by
  have hw := rawWrite_inv (rawWrite_inv h ports.dataAddr (Config.kbdPublishedData s.freeCount))
    ports.statusAddr (Config.kbdPublishedStatus s.freeCount)
  exact hw.of_same_system hw.canonical rfl rfl rfl

/-- The arrival of a byte keeps the invariant, with a device attached or without (R197). -/
theorem inputArrival_inv {s : State} (h : s.Inv) (k : Byte) : (s.inputArrival k).Inv := by
  unfold State.inputArrival
  split
  · have hbuf : { s with kbdBuffer := k, kbdPending := true }.Inv := h.of_same_system h.canonical rfl rfl rfl
    exact triggerIRQ_inv (publish_inv hbuf _)
  · exact h

theorem inputArrival_params (s : State) (k : Byte) : (s.inputArrival k).params = s.params := by
  unfold State.inputArrival
  split
  · simp [State.publish]
  · rfl

/-! ### Sequences of transactions -/

/-- Every transaction keeps the invariant (R6). -/
theorem transact_inv {a : Transaction} {s t : State} (h : s.Inv) (ht : transact a s = .next t) : t.Inv := by
  cases a with
  | step => exact step_inv h ht
  | reset => cases ht; exact hostReset_inv s
  | triggerIRQ => cases ht; exact triggerIRQ_inv h
  | addBreakpoint addr => cases ht; exact addBreakpoint_inv h addr
  | removeBreakpoint addr => cases ht; exact removeBreakpoint_inv h addr
  | writeByte addr v => cases ht; exact rawWrite_inv h _ _
  | loadProgram base bytes => cases ht; exact storeBytes_inv h _ bytes
  | writeReg r v => cases ht; exact writeReg_inv h r _
  | inputArrival k => cases ht; exact inputArrival_inv h k

/-- No transaction changes the parameters (log 1). -/
theorem transact_params {a : Transaction} {s t : State} (ht : transact a s = .next t) : t.params = s.params := by
  cases a with
  | step => exact step_params ht
  | triggerIRQ => cases ht; simp
  | loadProgram base bytes => cases ht; rw [State.loadProgram, storeBytes_same]
  | writeReg r v => cases ht; exact (writeReg_same s r _).keeps.1.params
  | inputArrival k => cases ht; exact inputArrival_params s k
  | _ => cases ht; rfl

/-- What every transaction of a list keeps, the whole list keeps. -/
theorem transactAll_keeps {P : State → Prop} {ts : List Transaction}
    (hP : ∀ a ∈ ts, ∀ s t, P s → transact a s = .next t → P t) {s t : State} (hs : P s)
    (ht : transactAll ts s = .next t) : P t := by
  induction ts generalizing s with
  | nil => cases ht; exact hs
  | cons a rest ih =>
    rw [transactAll] at ht
    split at ht
    · rename_i s' ha
      exact ih (fun b hb => hP b (by simp [hb])) (hP a (by simp) s s' hs ha) ht
    · cases ht
    · cases ht

/-- Settles O59, by induction on the list of transactions: each keeps the invariant and the parameters. -/
theorem transactionsKeepTheInvariant : Obligations.TransactionsKeepTheInvariant := by
  intro ts s t hs ht
  refine transactAll_keeps (P := fun u => u.Inv ∧ u.params = s.params) (fun a _ u v hu hv => ?_) ⟨hs, rfl⟩ ht
  obtain ⟨hinv, hparams⟩ := hu
  exact ⟨transact_inv hinv hv, (transact_params hv).trans hparams⟩

end Sys2Proof.Machine

/-! SUPPORT. The family of 10_state.md: the invariant at power-on and along a step, registers by code, D, the flags,
reset, and that no instruction but PSHS, EXG and TFR depends on CC. -/

namespace Sys2Proof.Machine

/-! ### The invariant -/

/-- Settles O58, by the three endings of a step: nothing, an interrupt service, an instruction. -/
theorem stepKeepsTheInvariant : Obligations.StepKeepsTheInvariant :=
  fun _ _ hs ht => step_inv hs ht

/-- At power-on nothing is listed, reported or waited for (R30, R221). -/
theorem powerOn_inv (p : Params) : (State.powerOn p).Inv :=
  .of_no_fault ⟨⟨.nil, nofun⟩, .nil⟩ rfl nofun

/-- Settles O57: the reset state is the power-on state of the standard parameters. -/
theorem invariantHoldsAtPowerOn : Obligations.InvariantHoldsAtPowerOn :=
  ⟨powerOn_inv, powerOn_inv .standard⟩

/-! ### Flags (R14) -/

/-- A flag as the statement of R14 says it: the masked CC is not 0. -/
theorem getFlag_eq_decide (s : State) (bit : Flag) : s.getFlag bit = decide (s.cc &&& bit.mask ≠ 0#8) := by
  rw [State.getFlag, ccGet, Bool.eq_iff_iff, bne_iff_ne, decide_eq_true_iff]

/-- Reading any flag after setting one (R14). -/
theorem getFlag_setFlag (s : State) (bit other : Flag) (v : Bool) :
    (s.setFlag bit v).getFlag other = if other = bit then v else s.getFlag other :=
  ccGet_ccSet s.cc bit other v

/-- Settles O11: a flag is its bit of CC, so setting it is seen at that bit only. -/
theorem settingAFlagChangesThatBitOnly : Obligations.SettingAFlagChangesThatBitOnly := by
  intro s bit other v
  refine ⟨getFlag_setFlag s bit other v, getFlag_eq_decide s bit, ?_, rfl⟩
  have hbit : s.getFlag bit = s.cc.getLsbD bit.index := ccGet_eq_bit s.cc bit
  cases bit <;> exact hbit

/-! ### D (R12) -/

theorem highByte_eq_ofNat (v : Word) : highByte v = BitVec.ofNat 8 (v.toNat / 256) := by
  rw [← highByte_toNat, BitVec.ofNat_toNat, BitVec.setWidth_eq]

theorem lowByte_eq_ofNat (v : Word) : lowByte v = BitVec.ofNat 8 v.toNat := by
  apply BitVec.eq_of_toNat_eq
  rw [lowByte_toNat, BitVec.toNat_ofNat]

/-- `D` as arithmetic (R12). -/
theorem d_toNat (s : State) : s.d.toNat = s.a.toNat * 256 + s.b.toNat := append_toNat s.a s.b

/-- `D` reads as what was written to it (R12). -/
@[simp] theorem d_setD (s : State) (v : Word) : (s.setD v).d = v := highByte_lowByte v

/-- Settles O10: D is made of A and B, and its writes are writes of their bytes. -/
theorem dIsTheConcatenationOfAAndB : Obligations.DIsTheConcatenationOfAAndB := by
  intro s v p
  refine ⟨d_toNat s, ?_, d_setD s v, d_toNat _, d_toNat _⟩
  rw [State.setD, highByte_eq_ofNat, lowByte_eq_ofNat]

/-! ### Registers by code (R159, R160) -/

/-- A zero-extended byte keeps its value (R159). -/
theorem zeroExtend_toNat (p : Byte) : (p.setWidth 16).toNat = p.toNat :=
  BitVec.toNat_setWidth_of_le (by decide)

/-- A word written to an 8-bit register reads back modulo 256 (R159, R160). -/
theorem zeroExtend_lowByte (v : Word) : (lowByte v).setWidth 16 = BitVec.ofNat 16 (v.toNat % 256) := by
  rw [← lowByte_toNat, BitVec.ofNat_toNat]

/-- Reading the code just written (R159, R160). -/
theorem readReg_writeReg_same (s : State) (r : RegCode) (v : Word) :
    (s.writeReg r v).readReg r = regTruncate r v := by
  cases r with
  | d => exact d_setD s v
  | a | b | cc | dp => exact zeroExtend_lowByte v
  | _ => rfl

/-- Reading a code that shares no storage with the code written (R12, R160): `h` leaves only pairs of codes whose fields
differ, so the read does not look at the field written. -/
theorem readReg_writeReg_other (s : State) {w q : RegCode} (v : Word) (h : regOverlaps w q = false) :
    (s.writeReg w v).readReg q = s.readReg q := by
  cases w <;> cases q <;> simp [regOverlaps] at h <;> rfl

/-- A write to D seen through its halves, and a write to a half seen through D (R12). -/
theorem readReg_writeReg_d (s : State) (v : Word) :
    ((s.writeReg .d v).readReg .a).toNat = v.toNat / 256 ∧
    ((s.writeReg .d v).readReg .b).toNat = v.toNat % 256 ∧
    ((s.writeReg .a v).readReg .d).toNat = v.toNat % 256 * 256 + s.b.toNat ∧
    ((s.writeReg .b v).readReg .d).toNat = s.a.toNat * 256 + v.toNat % 256 :=
  ⟨(zeroExtend_toNat _).trans (highByte_toNat v), (zeroExtend_toNat _).trans (lowByte_toNat v),
    lowByte_toNat v ▸ d_toNat _, lowByte_toNat v ▸ d_toNat _⟩

/-- Settles O14: the same code, a disjoint code, D with its halves, an unmapped code, and the frame. -/
theorem registerCodesReadBackWhatWasWritten : Obligations.RegisterCodesReadBackWhatWasWritten := by
  intro s w q v
  obtain ⟨hda, hdb, had, hbd⟩ := readReg_writeReg_d s v
  exact ⟨readReg_writeReg_same s w v, readReg_writeReg_other s v, hda, hdb, had, hbd,
    fun _ => ⟨rfl, rfl⟩, writeReg_same s w v⟩

/-! ### Reset (R30, R220) -/

/-- `reset()` field by field (R30, R220, R222). -/
theorem hostReset_eq (s : State) : s.hostReset = { s with
    pc := 0x0000#16, a := 0#8, b := 0#8, x := 0#16, y := 0#16, sp := 0xFFFE#16, u := 0xFFFE#16, dp := 0#8, cc := 0#8,
    mem := [], runState := .running, irqPending := false, breakpoints := [], instrCount := 0,
    lastEa := 0#16, lastPostbyte := 0#8, faultRecord := none } := rfl

/-- Settles O55: after reset nothing is left of the state but the device, the parameters and the draw counter. -/
theorem resetGivesTheResetValues : Obligations.ResetGivesTheResetValues :=
  fun s => ⟨fun _ => rfl, hostReset_eq s, rfl, rfl⟩

/-! ### No flag steers an instruction (R13, R104, R140) -/

/-- A multi-register pull does the same from any CC, but for what it leaves in CC (R155). -/
theorem pullMultiple_ignores_cc (s : State) (mask cc : Byte) :
    ∃ cc', ({ s with cc := cc } : State).pullMultiple mask = { s.pullMultiple mask with cc := cc' } := by
  rw [pullMultiple_eq, pullMultiple_eq]
  exact ⟨_, rfl⟩

/-- Settles O56, by cases on the instruction: the ones that pop read the accessor, which looks at memory and the device
only; every other one writes CC after it has computed the rest. -/
theorem onlyWholeCcReadersReadFlags : Obligations.OnlyWholeCcReadersReadFlags := by
  intro i s t cc hi ht
  cases i with
  | pshs | exg | tfr => exact hi.elim
  | puls mask =>
    cases ht
    obtain ⟨cc', h⟩ := pullMultiple_ignores_cc s mask cc
    exact ⟨cc', congrArg Host.Outcome.next h⟩
  | rti =>
    cases ht
    obtain ⟨cc', h⟩ := pullMultiple_ignores_cc s fullFrame cc
    exact ⟨cc', congrArg Host.Outcome.next h⟩
  | rts =>
    cases ht
    simp only [exec, execRts, popWord_eq]
    exact ⟨cc, rfl⟩
  | _ => cases ht; exact ⟨_, rfl⟩

end Sys2Proof.Machine

/-! SUPPORT. The family of 20_memory.md: the raw array as the host and the core write it, the device's ports, the fetch
and the stack, a placed word run by the next step, and the entry into an interrupt. -/

namespace Sys2Proof.Machine

/-! ### The raw array (R41, R45, R56) -/

/-- An address and the one after it are two cells, the last address included (R45). -/
theorem addr_ne_succ (addr : Word) : addr ≠ addr + 1#16 := by
  bv_omega

/-- A host value is stored modulo 256 (R41). -/
theorem ofInt8_toNat (v : Int) : ((BitVec.ofInt 8 v).toNat : Int) = v % 256 := by
  rw [BitVec.toNat_ofInt]
  omega

/-- What the host reads after a host write (R41, R56). -/
theorem hostReadByte_hostWriteByte (s : State) (addr v other : Int) (h : Memory.wf s.mem) :
    (s.hostWriteByte addr v).hostReadByte other =
      if other % 65536 = addr % 65536 then BitVec.ofInt 8 v else s.hostReadByte other := by
  simp only [State.hostReadByte, State.hostWriteByte, rawRead_rawWrite _ _ _ _ h, ofInt_eq_iff]

/-- Settles O6: a host write is seen exactly at the addresses equal to it modulo 65536. -/
theorem memoryReadAfterWrite : Obligations.MemoryReadAfterWrite := by
  intro s addr v other h
  have hread := hostReadByte_hostWriteByte s addr v (h := h)
  refine ⟨?_, fun ho => ?_, fun ho => ?_, rfl⟩
  · rw [hread, if_pos rfl, ofInt8_toNat]
  · rw [hread, hread, if_pos ho, if_pos rfl]
  · rw [hread, if_neg ho]

/-- What the array holds after a word write: the low byte, written last, then the high byte (R45). -/
theorem rawRead_memWriteWord (s : State) (addr v other : Word) (h : Memory.wf s.mem) :
    (s.memWriteWord addr v).rawRead other =
      if other = addr + 1#16 then lowByte v else if other = addr then highByte v else s.rawRead other := by
  simp only [State.memWriteWord, State.memWrite, rawRead_rawWrite _ _ _ _ (rawWrite_wf s _ _ h),
    rawRead_rawWrite _ _ _ _ h]

/-- Settles O7: the two cells differ, so the second write leaves the first byte. -/
theorem wordWriteIsTwoByteWrites : Obligations.WordWriteIsTwoByteWrites := by
  intro s addr v h
  have hread := rawRead_memWriteWord s addr v (h := h)
  refine ⟨addr_ne_succ addr, ?_, ?_, fun other hhi hlo => ?_, rfl⟩
  · rw [hread, if_neg (addr_ne_succ addr), if_pos rfl, highByte_toNat]
  · rw [hread, if_pos rfl, lowByte_toNat]
  · rw [hread, if_neg hlo, if_neg hhi]

/-- Settles O9: a load is `storeBytes` at the masked base, whose k-th address is `base + k` masked. -/
theorem loadedProgramLiesInMemory : Obligations.LoadedProgramLiesInMemory := by
  intro s base addr v bytes h hlen
  refine ⟨rfl, rfl, fun k hk => ?_, fun other ho => ?_, storeBytes_same bytes s _⟩
  · rw [State.hostReadByte, offsetAddr_ofInt]
    exact storeBytes_at bytes s _ h hlen k hk
  · refine storeBytes_other bytes s _ _ fun k hk he => ho k hk ?_
    rwa [← offsetAddr_ofInt, ofInt_eq_iff] at he

/-! ### The core's accessor (R42, R43, R195, R196) -/

/-- With no device a core read is a raw read (R42). -/
theorem memRead_of_noDevice {s : State} (h : s.params.kbd = none) (addr : Word) :
    s.memRead addr = (s.rawRead addr, s) := by
  simp only [State.memRead, h]

/-- A read of the data port (R195). -/
theorem memRead_dataAddr {s : State} {ports : KbdPorts} (h : s.params.kbd = some ports) :
    s.memRead ports.dataAddr = (s.kbdBuffer, { s with kbdPending := false }) := by
  simp only [State.memRead, h, if_pos]
  rfl

/-- A read of the status port (R196). -/
theorem memRead_statusAddr {s : State} {ports : KbdPorts} (h : s.params.kbd = some ports)
    (hne : ports.statusAddr ≠ ports.dataAddr) :
    s.memRead ports.statusAddr = (if s.kbdPending then 1#8 else 0#8, s) := by
  simp only [State.memRead, h, if_neg hne, if_pos]
  rfl

/-- A read of any other address with a device attached (R42). -/
theorem memRead_of_noPort {s : State} {ports : KbdPorts} (h : s.params.kbd = some ports) {addr : Word}
    (hd : addr ≠ ports.dataAddr) (hs : addr ≠ ports.statusAddr) : s.memRead addr = (s.rawRead addr, s) := by
  simp only [State.memRead, h, if_neg hd, if_neg hs]

/-- Settles O8: a core write is the raw write, and a core read looks at the ports first. -/
theorem deviceInterceptsReadsOnly : Obligations.DeviceInterceptsReadsOnly := by
  intro s addr v
  refine ⟨rfl, rfl, fun h => ?_, fun h => memRead_of_noDevice h addr, fun ports h =>
    ⟨memRead_dataAddr h, memRead_statusAddr h, memRead_of_noPort h, ?_⟩⟩
  · rw [State.memWrite, rawRead_rawWrite _ _ _ _ h, if_pos rfl]
  · have hkbd : (s.memWrite ports.dataAddr v).params.kbd = some ports := by simpa using h
    rw [memRead_dataAddr hkbd]
    simp

/-! ### Fetch (R80, R81) -/

/-- `FetchWord` is two fetches, the high byte first (R81). -/
theorem fetchWord_eq (s : State) :
    s.fetchWord = (s.rawRead s.pc ++ s.rawRead (s.pc + 1#16), { s with pc := s.pc + 2#16 }) := by
  have hpc : s.pc + 1#16 + 1#16 = s.pc + 2#16 := by bv_omega
  simp only [State.fetchWord, fetchByte_eq, hpc]
  rfl

/-- Settles O36: the raw cell at PC, once for a byte and twice for a word. -/
theorem fetchReadsAtPcAndAdvances : Obligations.FetchReadsAtPcAndAdvances := by
  intro s
  refine ⟨fetchByte_eq s, ?_, ?_, ?_⟩
  · rw [fetchByte_eq]
    exact BitVec.toNat_add s.pc 1#16
  · rw [fetchWord_eq, append_toNat]
  · rw [fetchWord_eq]

/-! ### The stack (R150, R151) -/

/-- What the array holds after `PushByte` (R150). -/
theorem rawRead_pushByte (s : State) (v : Byte) (other : Word) (h : Memory.wf s.mem) :
    (s.pushByte v).rawRead other = if other = s.sp - 1#16 then v else s.rawRead other :=
  rawRead_rawWrite { s with sp := s.sp - 1#16 } (s.sp - 1#16) other v h

/-- Settles O25: a push is a store at the lowered SP, a pop an accessor read at SP. -/
theorem pushAndPopByte : Obligations.PushAndPopByte := by
  intro s v h
  refine ⟨by rw [pushByte_eq], ?_, fun other ho => ?_, by rw [pushByte_eq], popByte_eq s⟩
  · rw [rawRead_pushByte s v _ h, if_pos rfl]
  · rw [rawRead_pushByte s v _ h, if_neg ho]

/-! ### A word placed at PC (R56, R82, R89) -/

/-- A table word is placed as two bytes (R62, log 12). -/
theorem tableBytes_length (nbits w : Nat) : (tableBytes nbits w).length = 2 := by
  unfold tableBytes
  split <;> rfl

/-- Two bytes stored at PC are the bytes at PC (R56). -/
theorem bytesAtPc_storeBytes (s : State) (bytes : List Byte) (hlen : bytes.length = 2) (h : Memory.wf s.mem) :
    (s.storeBytes s.pc bytes).bytesAtPc = bytes := by
  have hpc : (s.storeBytes s.pc bytes).pc = s.pc := by rw [storeBytes_same]
  obtain ⟨p, q, rfl⟩ := List.length_eq_two.1 hlen
  have hat := storeBytes_at [p, q] s s.pc h (by simp)
  have hp : (s.storeBytes s.pc [p, q]).rawRead s.pc = p := by simpa using hat 0 (by simp)
  have hq : (s.storeBytes s.pc [p, q]).rawRead (s.pc + 1#16) = q := hat 1 (by simp)
  rw [State.bytesAtPc, hpc, hp, hq]

/-- `withFetchWord` changes memory only, in a state ready to fetch (log 13). -/
theorem withFetchWord_same (s : State) (nbits w : Nat) :
    s.withFetchWord nbits w = { s.readyToFetch with mem := (s.withFetchWord nbits w).mem } :=
  storeBytes_same _ _ _

/-- A state with a placed word reaches the fetch at the same PC (R82, log 13). -/
theorem withFetchWord_fetches (s : State) (nbits w : Nat) : (s.withFetchWord nbits w).fetches := by
  rw [withFetchWord_same]
  exact ⟨rfl, rfl, by simp [State.readyToFetch]⟩

/-- The bytes at PC after placing a table word are the bytes of that word (log 13). -/
theorem withFetchWord_bytesAtPc (s : State) (nbits w : Nat) (h : Memory.wf s.mem) :
    (s.withFetchWord nbits w).bytesAtPc = tableBytes nbits w :=
  bytesAtPc_storeBytes s.readyToFetch _ (tableBytes_length nbits w) h

/-- A table word that decodes to `i` is two bytes that decode to `i` (log 12). -/
theorem decodeTableWord_some {nbits w : Nat} {i : Instr} (h : decodeTableWord nbits w = some i) :
    ∃ rest, decode (tableBytes nbits w) = .ok (i, rest) := by
  unfold decodeTableWord at h
  split at h
  · cases h
    exact ⟨_, ‹_›⟩
  · cases h

/-- Settles O46: the step fetches, and the bytes it fetches are those of the word. -/
theorem placedWordIsRunNext : Obligations.PlacedWordIsRunNext := by
  intro s nbits w i h hi
  have hf := withFetchWord_fetches s nbits w
  obtain ⟨rest, hd⟩ := decodeTableWord_some hi
  refine ⟨hf, by rw [withFetchWord_same]; rfl, ?_⟩
  rw [step_of_fetches hf]
  exact runInstruction_of_decode (withFetchWord_bytesAtPc s nbits w h ▸ hd)

/-! ### The entry into an interrupt (R185, R186) -/

/-- CC after the entry: E and I set, every other flag kept (R185). -/
theorem entry_ccWrites (cc : Byte) : ccWrites cc (cc ||| 0x80#8 ||| 0x10#8) [(.e, true), (.i, true)] := by
  intro bit
  have hset : cc ||| 0x80#8 ||| 0x10#8 = ccSet (ccSet cc .e true) .i true := rfl
  rw [hset, ccGet_ccSet, ccGet_ccSet]
  cases bit <;> rfl

/-- A push in a state with another CC leaves the accessor what it would be with the pushed memory alone: the device and
the parameters are untouched, and the accessor looks at nothing else (R42). -/
theorem pushMultiple_accessor (s : State) (cc mask : Byte) (base : Word) (n : Nat) :
    let t := ({ s with cc := cc } : State).pushMultiple mask
    t.accessorByte base n = ({ s with mem := t.mem } : State).accessorByte base n ∧
      t.pendingAfter base n = ({ s with mem := t.mem } : State).pendingAfter base n := by
  obtain ⟨m, sp, h⟩ := pushMultiple_same { s with cc := cc } mask
  rw [h]
  exact ⟨rfl, rfl⟩

/-- Settles O49: the frame is what `pushMultiple` pushed in the state with E set, and of that state the accessor's vector
read sees the memory only. -/
theorem interruptEntryResult : Obligations.InterruptEntryResult := by
  intro s h hr hi
  have hp := serviceInterrupt_pushed s h
  have hacc := pushMultiple_accessor s (s.cc ||| 0x80#8) fullFrame Config.irqVectorAddr
  have hlen : (({ s with cc := s.cc ||| 0x80#8 } : State).frameBytes fullFrame).length = 12 := frameBytes_length _ _
  have hsp := hp.sp
  have hentry := serviceInterrupt_eq s
  generalize ({ s with cc := s.cc ||| 0x80#8 } : State).pushMultiple fullFrame = t at hp hacc hsp hentry
  rw [hlen] at hsp
  refine ⟨{ s with mem := t.mem }, _, rfl, ?_, entry_ccWrites s.cc, fun k hk => ?_, fun other ho => ?_⟩
  · rw [step_of_request hr hi, hentry]
    simp only [hsp, (hacc 0).1, (hacc 1).1, (hacc 2).2]
  · have hlies := hp.lies k (hlen ▸ hk)
    rw [hsp] at hlies
    exact List.getElem?_eq_some_iff.2 ⟨hlen ▸ hk, hlies.symm⟩
  · refine hp.others other fun k hk => ?_
    rw [hsp]
    exact ho k (hlen ▸ hk)

end Sys2Proof.Machine

/-! SUPPORT. The family of 30_encoding.md: decode and encode are inverse, the keys the table maps, how a key is formed,
and the wait opcode, a key the table does not map. -/

namespace Sys2Proof

/-! ### Decoding an encoding (R62 to R64) -/

section
open Laws.RoundTrip

/-- Every row round-trips. Only the register codes of EXG and TFR need well-formedness; any other operand is the raw
byte after the opcode (R67, R159). -/
theorem decode_encode (i : Instr) : Statement i :=
  match i with
  | .nop => nop
  | .sync => sync
  | .exg r1 r2 => exg r1 r2
  | .tfr r1 r2 => tfr r1 r2
  | .bra v => bra v
  | .leax v => leax v
  | .pshs v => pshs v
  | .puls v => puls v
  | .rts => rts
  | .rti => rti
  | .mul => mul
  | .deca => deca
  | .inca => inca
  | .decb => decb
  | .incb => incb
  | .suba v => suba v
  | .anda v => anda v
  | .lda v => lda v
  | .eora v => eora v
  | .ora v => ora v
  | .adda v => adda v
  | .sta v => sta v
  | .subb v => subb v
  | .andb v => andb v
  | .ldb v => ldb v
  | .eorb v => eorb v
  | .orb v => orb v
  | .addb v => addb v
  | .stb v => stb v

end

/-- Settles O1, row by row of the table. -/
theorem decodeOfEncodeIsTheInstruction : Obligations.DecodeOfEncodeIsTheInstruction :=
  fun i rest h => decode_encode i h rest

/-! ### Encoding what was decoded (R62 to R64, R67) -/

/-- Whatever an entry makes is well-formed, and its encoding is the opcode byte, then the operand byte if one is taken. -/
def TableEntry.EncodesAs (op : Byte) : TableEntry → Prop
  | .inherent i => i.wf = true ∧ encode i = [op]
  | .withByte make => ∀ b, (make b).wf = true ∧ encode (make b) = [op, b]

/-- The first register code of any post-byte is well-formed (R63, R159). -/
theorem postbyteR1_wf (pb : Byte) : (postbyteR1 pb).wf = true := RegCode.ofNibble_wf _

/-- The second register code of any post-byte is well-formed (R63, R159). -/
theorem postbyteR2_wf (pb : Byte) : (postbyteR2 pb).wf = true := RegCode.ofNibble_wf _

/-- Decoder table and encoder agree on every row: the encoder's opcode byte is the key (R64). -/
theorem opcodeTable_encodesAs : ∀ row ∈ opcodeTable, row.2.EncodesAs (row.1.setWidth 8) := by
  simp [opcodeTable, opcodeTableSystem, opcodeTableAccumulator, opcodeTableB, TableEntry.EncodesAs, encode,
    Instr.wf, postbyteOf_postbyte, postbyteR1_wf, postbyteR2_wf]

/-- The low byte of an unprefixed key is its opcode (R61). -/
@[simp] theorem setWidth_byteKey (op : Byte) : (byteKey op).setWidth 8 = op := by
  simp [byteKey]

/-- The entry an opcode byte is mapped to encodes with that byte (R64). -/
theorem encodesAs_of_lookupKey {op : Byte} {e : TableEntry} (h : lookupKey (byteKey op) = some e) :
    e.EncodesAs op := by
  simpa using opcodeTable_encodesAs _ (mem_of_lookupKey h)

/-- Decoding an opcode byte and its operand reads what the encoder writes (R62, R63). -/
theorem encode_of_decodeKey {op : Byte} {bytes rest : List Byte} {i : Instr}
    (h : decodeKey (byteKey op) bytes = .ok (i, rest)) : i.wf = true ∧ encode i ++ rest = op :: bytes := by
  unfold decodeKey at h
  split at h
  · cases h
  · next hl =>
    cases h
    obtain ⟨hwf, henc⟩ := encodesAs_of_lookupKey hl
    exact ⟨hwf, by rw [henc]; rfl⟩
  · next hl =>
    split at h
    · cases h
    · next b _ =>
      cases h
      obtain ⟨hwf, henc⟩ := encodesAs_of_lookupKey hl b
      exact ⟨hwf, by rw [henc]; rfl⟩

/-- Nothing decodes after an escape byte: no key of two bytes is mapped (R66). -/
theorem decodeKey_escaped {op : Byte} (h : isEscape op = true) (op2 : Byte) (bytes : List Byte) :
    decodeKey (escapedKey op op2) bytes = .error (.unknownOpcode (escapedKey op op2)) := by
  simp only [decodeKey, lookupKey_escaped op op2 h]

/-- Settles O2: what decodes starts with no escape byte, and its table row is the encoder's. -/
theorem encodeOfDecodeIsTheBytes : Obligations.EncodeOfDecodeIsTheBytes := by
  intro bytes rest i h
  unfold decode at h
  split at h
  · cases h
  · next op tail =>
    split at h
    · next hesc =>
      split at h
      · cases h
      · rw [decodeKey_escaped hesc] at h
        cases h
    · exact encode_of_decodeKey h

/-- Settles O3, by running the decoder. -/
theorem writtenOutWordsDecode : Obligations.WrittenOutWordsDecode :=
  ⟨rfl, rfl, rfl, rfl, rfl, rfl, rfl, rfl, rfl, rfl, rfl, rfl, rfl, rfl, rfl, rfl⟩

/-! ### The mapped keys (R64 to R66) -/

/-- A key has an entry exactly when it is the key of a row (R64, R65). -/
theorem exists_lookupKey_iff (k : Key) : (∃ e, lookupKey k = some e) ↔ k ∈ mappedKeys := by
  rw [← Option.isSome_iff_exists, lookupKey, List.lookup_isSome_iff, mappedKeys, List.mem_map]
  simp only [beq_iff_eq, eq_comm (a := k)]

/-- Settles O5: a key is mapped exactly when its number is one of the rows' numbers. -/
theorem exactlyTheTwentyNineKeysAreMapped : Obligations.ExactlyTheTwentyNineKeysAreMapped := by
  intro k
  rw [exists_lookupKey_iff, ← List.mem_map_of_injective BitVec.toNat_injective]
  rfl

/-- A legal wait opcode is unmapped and no escape byte (R71, log 6). -/
theorem waitKeyLegal_byteKey {op : Byte} (h : waitKeyLegal (byteKey op) = true) :
    lookupKey (byteKey op) = none ∧ isEscape op = false := by
  simp only [waitKeyLegal, setWidth_byteKey, Bool.and_eq_true, Bool.not_eq_true', List.contains_eq_mem,
    decide_eq_false_iff_not, ← exists_lookupKey_iff] at h
  obtain ⟨⟨-, hunmapped⟩, hesc⟩ := h
  exact ⟨Option.eq_none_iff_forall_ne_some.2 fun e he => hunmapped ⟨e, he⟩, by simpa [isEscape] using hesc⟩

end Sys2Proof

namespace Sys2Proof.Machine

/-! ### Key formation (R61) -/

/-- Settles O4: a prefixed key is at least 0x1000, an unprefixed one is an opcode other than the two escape bytes. -/
theorem keyIsOpcodeOrPrefixedByte : Obligations.KeyIsOpcodeOrPrefixedByte := by
  intro s op op2
  rw [fetchKey_eq]
  by_cases hesc : op = 0x10#8 ∨ op = 0x11#8
  · have hkey : (escapedKey op op2).toNat = op.toNat * 256 + op2.toNat := escapedKey_toNat op op2
    have hop : op.toNat = 0x10 ∨ op.toNat = 0x11 := hesc.imp (congrArg BitVec.toNat) (congrArg BitVec.toNat)
    rw [if_pos ((isEscape_iff op).2 hesc)]
    have hne : (escapedKey op op2).toNat ≠ 0x10 ∧ (escapedKey op op2).toNat ≠ 0x11 := by omega
    exact ⟨fun _ => ⟨hkey, rfl⟩, fun hn => absurd hesc hn, hne⟩
  · have hkey : (byteKey op).toNat = op.toNat := byteKey_toNat op
    have hop : op.toNat ≠ 0x10 ∧ op.toNat ≠ 0x11 :=
      ⟨fun h => hesc (.inl (BitVec.eq_of_toNat_eq h)), fun h => hesc (.inr (BitVec.eq_of_toNat_eq h))⟩
    rw [if_neg fun h => hesc ((isEscape_iff op).1 h)]
    exact ⟨fun h => absurd h hesc, fun _ => ⟨hkey, rfl⟩, hkey ▸ hop⟩

/-! ### The wait opcode (R71, R173) -/

/-- An unmapped unprefixed key that is the wait opcode runs WAI (R71, log 5). -/
theorem runInstruction_of_wait {s : State} (hesc : isEscape (s.rawRead s.pc) = false)
    (hl : lookupKey (byteKey (s.rawRead s.pc)) = none) (hw : s.params.waitOpcode = some (byteKey (s.rawRead s.pc))) :
    s.runInstruction = counted (execWai (s.fetched 1)) := by
  have hw' : (s.fetched 1).params.waitOpcode = some (byteKey (s.rawRead s.pc)) := hw
  simp only [State.runInstruction, fetchKey_cleared, hesc, Bool.false_eq_true, if_false, State.runKey, hl, if_pos hw']

/-- Settles O35: a legal wait opcode is one unmapped byte, so the step that fetches it runs WAI. -/
theorem waitOpcodeWaits : Obligations.WaitOpcodeWaits := by
  rintro s _ hf rfl hw hlegal
  obtain ⟨hl, hesc⟩ := waitKeyLegal_byteKey hlegal
  rw [step_of_fetches hf, runInstruction_of_wait hesc hl hw]
  rfl

end Sys2Proof.Machine

/-! SUPPORT. The family of 40_fetch_step.md: the states in which a step does nothing, what a step that fetches does to
PC, to the introspection fields and to the system state, and that nothing but a reset ends a halt. -/

namespace Sys2Proof.Machine

/-! ### A halt ends at reset only (R83, R188, R204) -/

/-- The arrival of a byte leaves the run state, the count and the fault record alone (R197). -/
theorem inputArrival_runState (s : State) (k : Byte) :
    (s.inputArrival k).runState = s.runState ∧ (s.inputArrival k).instrCount = s.instrCount ∧
      (s.inputArrival k).faultRecord = s.faultRecord := by
  unfold State.inputArrival
  split
  · simp [State.publish]
  · exact ⟨rfl, rfl, rfl⟩

/-- The run state, the count and the fault record move in a step or a reset only (R6, R29, R188). -/
theorem transact_runState {a : Transaction} {s t : State} (hstep : a ≠ .step) (hreset : a ≠ .reset)
    (ht : transact a s = .next t) :
    t.runState = s.runState ∧ t.instrCount = s.instrCount ∧ t.faultRecord = s.faultRecord := by
  cases a with
  | step => exact absurd rfl hstep
  | reset => exact absurd rfl hreset
  | triggerIRQ => cases ht; simp
  | loadProgram base bytes => cases ht; rw [State.loadProgram, storeBytes_same]; exact ⟨rfl, rfl, rfl⟩
  | writeReg r v =>
    cases ht
    obtain ⟨hk, hr, -⟩ := (writeReg_same s r (BitVec.ofInt 16 v)).keeps
    exact ⟨hr, hk.instrCount, hk.faultRecord⟩
  | inputArrival k => cases ht; exact inputArrival_runState s k
  | _ => cases ht; exact ⟨rfl, rfl, rfl⟩

/-- In a halted core a step moves them no more than any other transaction does (R83). -/
theorem transact_of_halted {a : Transaction} {s t : State} (hh : s.runState = .halted) (hreset : a ≠ .reset)
    (ht : transact a s = .next t) :
    t.runState = s.runState ∧ t.instrCount = s.instrCount ∧ t.faultRecord = s.faultRecord := by
  by_cases hstep : a = .step
  · subst hstep
    rw [transact, step_of_halted hh] at ht
    cases ht
    exact ⟨rfl, rfl, rfl⟩
  · exact transact_runState hstep hreset ht

/-- Settles O52, along the list of transactions: each starts in a halted core and so leaves one with the same count and
fault record. -/
theorem haltedUntilReset : Obligations.HaltedUntilReset := by
  intro ts s t hs hreset ht
  refine transactAll_keeps
    (P := fun u => u.runState = .halted ∧ u.instrCount = s.instrCount ∧ u.faultRecord = s.faultRecord)
    (fun a ha u v hu hv => ?_) ⟨hs, rfl, rfl⟩ ht
  obtain ⟨hrun, hcount, hfault⟩ := hu
  obtain ⟨hrun', hcount', hfault'⟩ := transact_of_halted hrun (fun h => hreset (h ▸ ha)) hv
  exact ⟨hrun'.trans hrun, hcount'.trans hcount, hfault'.trans hfault⟩

/-! ### States a step does not leave (R83, R84, R86) -/

/-- Where one step changes nothing, no number of steps does. -/
theorem run_of_step_self {s : State} (h : step s = .next s) (n : Nat) :
    Host.Core.run Sys2Proof.core n s = .next s := by
  induction n with
  | zero => rfl
  | succ n ih =>
    have hstep : Sys2Proof.core.step s = .next s := h
    simp only [Host.Core.run, hstep, ih]

/-- Settles O39: one step of a halted core changes nothing. -/
theorem haltedStepChangesNothing : Obligations.HaltedStepChangesNothing :=
  fun n _ h => run_of_step_self (step_of_halted h) n

/-- A waiting core does nothing without a request (R84). -/
theorem step_of_waiting {s : State} (hr : s.runState = .waitingForInterrupt) (hi : s.irqPending = false) :
    step s = .next s := by
  simp [step, sequencer, hr, hi]

/-- A Running core with nothing pending does nothing at a breakpoint (R86). -/
theorem step_of_breakpoint {s : State} (hr : s.runState = .running) (hi : s.irqPending = false)
    (hb : s.pc ∈ s.breakpoints) : step s = .next s := by
  simp [step, sequencer, hr, hi, hb]

/-- Settles O40: a waiting core is not halted, so a request is serviced, and the service ends Running. -/
theorem waitingCoreWakesOnlyForARequest : Obligations.WaitingCoreWakesOnlyForARequest :=
  fun _ hr => ⟨step_of_waiting hr, fun hi => ⟨step_of_request (by simp [hr]) hi, rfl⟩⟩

/-- Settles O41: at a breakpoint a step is the identity until a request comes; elsewhere it fetches. -/
theorem breakpointStallsTheCore : Obligations.BreakpointStallsTheCore :=
  fun _ hr => ⟨fun hb hi n => run_of_step_self (step_of_breakpoint hr hi hb) n,
    fun _ hi => step_of_request (by simp [hr]) hi,
    fun hb hi => step_of_fetches ⟨hr, hi, hb⟩⟩

/-! ### A step that executes an instruction (R87 to R92) -/

/-- A step whose bytes decode is the counted effect of the instruction (R87 to R90). -/
theorem step_of_decode {s : State} {i : Instr} {rest : List Byte} (hf : s.fetches)
    (hd : decode s.bytesAtPc = .ok (i, rest)) : step s = counted (exec i (s.fetched (encode i).length)) :=
  (step_of_fetches hf).trans (runInstruction_of_decode hd)

/-- What such a step answers: the state the instruction leaves, counted (R89). -/
theorem exec_of_step {s t : State} {i : Instr} {rest : List Byte} (hf : s.fetches)
    (hd : decode s.bytesAtPc = .ok (i, rest)) (ht : step s = .next t) :
    ∃ u, exec i (s.fetched (encode i).length) = .next u ∧ t = u.countInstruction :=
  counted_next ((step_of_decode hf hd).symm.trans ht)

/-- Settles O37: `counted` is the match the statement writes out. -/
theorem stepRunsTheDecodedInstruction : Obligations.StepRunsTheDecodedInstruction :=
  fun _ _ _ hf hd => step_of_decode hf hd

/-! ### PC (R92) -/

/-- An address past `n` bytes, as arithmetic (R92). -/
theorem offsetAddr_toNat (base : Word) (n : Nat) : (offsetAddr base n).toNat = (base.toNat + n) % 65536 := by
  rw [offsetAddr, BitVec.toNat_add, BitVec.toNat_ofNat, Nat.add_mod_mod]

/-- The instructions that leave PC at the next instruction (R92). -/
def KeepsPc : Instr → Prop
  | .bra _ | .rts | .rti => False
  | .puls mask => mask.getLsbD 7 = false
  | .exg r1 r2 => r1 ≠ .pc ∧ r2 ≠ .pc
  | .tfr _ r2 => r2 ≠ .pc
  | _ => True

/-- A write to any other code leaves PC (R160). -/
theorem writeReg_pc (s : State) {r : RegCode} (v : Word) (h : r ≠ .pc) : (s.writeReg r v).pc = s.pc := by
  cases r with
  | pc => exact absurd rfl h
  | _ => rfl

/-- A pull whose mask leaves PC out leaves PC (R155). -/
theorem pullMultiple_pc (s : State) {mask : Byte} (h : mask.getLsbD 7 = false) : (s.pullMultiple mask).pc = s.pc := by
  rw [pullMultiple_eq, h]
  rfl

/-- A push leaves PC (R154). -/
theorem pushMultiple_pc (s : State) (mask : Byte) : (s.pushMultiple mask).pc = s.pc := by
  obtain ⟨m, sp, h⟩ := pushMultiple_same s mask
  rw [h]

/-- The instructions that transfer no control leave PC where the fetch has put it (R92). -/
theorem exec_pc {i : Instr} {s t : State} (hi : KeepsPc i) (h : exec i s = .next t) : t.pc = s.pc := by
  cases i with
  | bra | rts | rti => exact hi.elim
  | puls mask => cases h; exact pullMultiple_pc s hi
  | exg r1 r2 =>
    cases h
    obtain ⟨h1, h2⟩ := hi
    exact (writeReg_pc _ _ h2).trans (writeReg_pc s _ h1)
  | tfr r1 r2 => cases h; exact writeReg_pc s _ hi
  | pshs mask => cases h; exact pushMultiple_pc s mask
  | _ => cases h; rfl

/-- Settles O42: the fetch has moved PC past the instruction, and its effect leaves it there. -/
theorem pcIsPastTheInstruction : Obligations.PcIsPastTheInstruction := by
  intro s t i rest hf hd ht hi
  obtain ⟨u, hu, rfl⟩ := exec_of_step hf hd ht
  have hkeeps : KeepsPc i := hi
  have hpc : u.countInstruction.pc = offsetAddr s.pc (encode i).length := exec_pc hkeeps hu
  rw [hpc, offsetAddr_toNat]

/-! ### The introspection fields (R90, R131) -/

/-- A change of registers leaves the introspection fields. -/
theorem sameButRegisters.introspection {s t : State} (h : sameButRegisters s t) :
    t.lastEa = s.lastEa ∧ t.lastPostbyte = s.lastPostbyte := by
  rw [sameButRegisters] at h
  rw [h]
  exact ⟨rfl, rfl⟩

/-- A pull leaves the introspection fields (R155). -/
theorem pullMultiple_introspection (s : State) (mask : Byte) :
    (s.pullMultiple mask).lastEa = s.lastEa ∧ (s.pullMultiple mask).lastPostbyte = s.lastPostbyte := by
  rw [pullMultiple_eq]
  exact ⟨rfl, rfl⟩

/-- Only LEAX writes the introspection fields (R90). -/
theorem exec_introspection {i : Instr} {s t : State} (hi : ∀ off, i ≠ .leax off) (h : exec i s = .next t) :
    t.lastEa = s.lastEa ∧ t.lastPostbyte = s.lastPostbyte := by
  cases i with
  | leax off => exact absurd rfl (hi off)
  | exg r1 r2 =>
    cases h
    obtain ⟨hea, hpb⟩ := (writeReg_same s r1 (s.readReg r2)).introspection
    obtain ⟨hea', hpb'⟩ := (writeReg_same (s.writeReg r1 (s.readReg r2)) r2 (s.readReg r1)).introspection
    exact ⟨hea'.trans hea, hpb'.trans hpb⟩
  | tfr r1 r2 => cases h; exact (writeReg_same s r2 (s.readReg r1)).introspection
  | pshs mask =>
    cases h
    obtain ⟨m, sp, h⟩ := pushMultiple_same s mask
    rw [h]
    exact ⟨rfl, rfl⟩
  | puls mask => cases h; exact pullMultiple_introspection s mask
  | rti => cases h; exact pullMultiple_introspection s fullFrame
  | rts => cases h; simp
  | _ => cases h; exact ⟨rfl, rfl⟩

/-- Settles O43: LEAX records its operand and the address it puts into X; for the rest the fetch has cleared both
fields. -/
theorem introspectionIsZeroButForLeax : Obligations.IntrospectionIsZeroButForLeax := by
  intro s t i rest hf hd ht
  obtain ⟨u, hu, rfl⟩ := exec_of_step hf hd ht
  split
  · cases hu
    exact ⟨rfl, rfl⟩
  · next hi => exact exec_introspection hi hu

/-! ### An unmapped key (R88, R181) -/

/-- An unmapped key that is not the wait opcode raises the fault (R88). -/
theorem runKey_of_unknown {s : State} {key : Key} (addr : Word) (hl : lookupKey key = none)
    (hw : s.params.waitOpcode ≠ some key) : s.runKey key addr = .next (s.raiseUnknownOpcode key addr) := by
  simp only [State.runKey, hl, if_neg hw]

/-- Settles O38: the key is the opcode byte, or the escape byte and the byte after it, and in each case the bytes of
the key are what has been fetched. -/
theorem unknownOpcodeHaltsTheCore : Obligations.UnknownOpcodeHaltsTheCore := by
  intro s hf op op2
  rw [step_of_fetches hf, State.runInstruction, fetchKey_cleared]
  refine ⟨fun h10 h11 hl hw => ?_, fun hescape hl hw => ?_⟩
  · have hesc : ¬ isEscape op = true := fun h => ((isEscape_iff op).1 h).elim h10 h11
    rw [if_neg hesc]
    exact runKey_of_unknown s.pc hl hw
  · have hesc : isEscape op = true := (isEscape_iff op).2 hescape
    rw [if_pos hesc]
    exact runKey_of_unknown s.pc hl hw

/-! ### The system state (R91) -/

/-- What the service of an interrupt leaves of the system state: all but the request (R185). -/
theorem serviceInterrupt_keeps (s : State) :
    s.serviceInterrupt.breakpoints = s.breakpoints ∧ s.serviceInterrupt.kbdBuffer = s.kbdBuffer ∧
      s.serviceInterrupt.params = s.params ∧ s.serviceInterrupt.freeCount = s.freeCount ∧
      s.serviceInterrupt.instrCount = s.instrCount ∧ s.serviceInterrupt.faultRecord = s.faultRecord := by
  simp [serviceInterrupt_eq]

/-- The service leaves a pending byte or clears it: its one read is that of the vector (R185, R195). -/
theorem serviceInterrupt_kbdPending {s : State} (h : s.serviceInterrupt.kbdPending = true) : s.kbdPending = true := by
  have hentry := serviceInterrupt_eq s
  obtain ⟨-, hpend⟩ := pushMultiple_accessor s (s.cc ||| 0x80#8) fullFrame Config.irqVectorAddr 2
  generalize ({ s with cc := s.cc ||| 0x80#8 } : State).pushMultiple fullFrame = pushed at hentry hpend
  rw [hentry] at h
  exact pendingAfter_le { s with mem := pushed.mem } _ 2 (hpend.symm.trans h)

/-- Settles O44, by the endings of a step: nothing, an interrupt service, and the three of a step that fetches. -/
theorem systemStateChangesOnlyInItsCase : Obligations.SystemStateChangesOnlyInItsCase := by
  intro s t ht
  rcases step_cases s with ⟨hs, -⟩ | ⟨hr, hi, hs⟩ | ⟨hf, hs⟩ <;> rw [hs] at ht
  · cases ht
    exact ⟨rfl, rfl, rfl, rfl, id, absurd rfl, .inl rfl, absurd rfl, id⟩
  · cases ht
    obtain ⟨hbreak, hbuf, hparams, hfree, hcount, hfault⟩ := serviceInterrupt_keeps s
    exact ⟨hbreak, hbuf, hparams, hfree, fun _ => hi, fun _ => ⟨hr, rfl⟩, .inl hcount, absurd hfault,
      serviceInterrupt_kbdPending⟩
  · rcases runInstruction_cases ht with ⟨i, n, u, hu, rfl⟩ | ⟨key, n, -, rfl⟩ | ⟨key, n, -, -, rfl⟩
    · obtain ⟨hk, -⟩ := exec_keepsSystem hu
      exact ⟨hk.breakpoints, hk.kbdBuffer, hk.params, hk.freeCount, hk.irqPending.symm.trans,
        absurd hk.irqPending, .inr ⟨hf, congrArg (· + 1) hk.instrCount⟩, absurd hk.faultRecord, hk.kbdPending⟩
    · exact ⟨rfl, rfl, rfl, rfl, id, absurd rfl, .inr ⟨hf, rfl⟩, absurd rfl, id⟩
    · exact ⟨rfl, rfl, rfl, rfl, id, absurd rfl, .inl rfl, fun _ => ⟨hf, rfl, rfl⟩, id⟩

end Sys2Proof.Machine

/-! SUPPORT. The family of 41_alu_flags.md: each flag algorithm as the list of flags it writes, the stored results as
arithmetic, and what each accumulator instruction leaves of the state. -/

namespace Sys2Proof.Machine

/-! ### N and Z of an integer result (R100, R101) -/

/-- N and Z of an integer masked to a byte, as arithmetic on the integer (R100). -/
theorem nzOf8_ofInt (r : Int) :
    nzOf8 (BitVec.ofInt 8 r) = [(.n, decide (128 ≤ r % 256)), (.z, decide (r % 256 = 0))] := by
  have hval := ofInt8_toNat r
  have hn : 128 ≤ (BitVec.ofInt 8 r).toNat ↔ 128 ≤ r % 256 := by omega
  have hz : (BitVec.ofInt 8 r).toNat = 0 ↔ r % 256 = 0 := by omega
  rw [nzOf8, decide_eq_decide.2 hn, decide_eq_decide.2 hz]

/-- An integer masked to a word is its value modulo 65536 (R101). -/
theorem ofInt16_toNat (v : Int) : ((BitVec.ofInt 16 v).toNat : Int) = v % 65536 := by
  rw [BitVec.toNat_ofInt]
  omega

/-- N and Z of an integer masked to a word, as arithmetic on the integer (R101). -/
theorem nzOf16_ofInt (r : Int) :
    nzOf16 (BitVec.ofInt 16 r) = [(.n, decide (32768 ≤ r % 65536)), (.z, decide (r % 65536 = 0))] := by
  have hval := ofInt16_toNat r
  have hn : 32768 ≤ (BitVec.ofInt 16 r).toNat ↔ 32768 ≤ r % 65536 := by omega
  have hz : (BitVec.ofInt 16 r).toNat = 0 ↔ r % 65536 = 0 := by omega
  rw [nzOf16, decide_eq_decide.2 hn, decide_eq_decide.2 hz]

/-- Settles O12: `SetNZ` looks at the masked result, whose value is the integer modulo 2^width. -/
theorem setNZWritesNAndZOnly : Obligations.SetNZWritesNAndZOnly :=
  ⟨fun s r => ⟨_, rfl, nzOf8_ofInt r ▸ ccNZ8_writes s.cc _⟩,
    fun s r => ⟨_, rfl, nzOf16_ofInt r ▸ ccNZ16_writes s.cc _⟩⟩

/-! ### The flags of an addition and a subtraction (R102 to R104) -/

/-- `AddFlags8` of the 9-bit sum writes C, V and H (R102). -/
theorem ccAdd8_writes (cc p q : Byte) : ccWrites cc (ccAdd8 cc p q (sum9 p q)) (carriesOfAdd p q) := by
  intro bit
  rw [ccGet_ccAdd8, sum9_halfCarry, sum9_overflow, sum9_carry]
  cases bit <;> rfl

/-- `SubFlags8` of the 9-bit difference writes C and V (R103). -/
theorem ccSub8_writes (cc p q : Byte) : ccWrites cc (ccSub8 cc p q (diff9 p q)) (carriesOfSub p q) := by
  intro bit
  rw [ccGet_ccSub8, diff9_overflow, diff9_borrow]
  cases bit <;> rfl

/-- Settles O13: the 9-bit sum does not wrap, and `AddFlags8` writes its carries. -/
theorem addFlagsAreCarryOverflowHalfCarry : Obligations.AddFlagsAreCarryOverflowHalfCarry :=
  fun s p q => ⟨_, rfl, sum9_toNat p q, ccAdd8_writes s.cc p q⟩

/-- Two writes of CC one after the other, with no flag in both lists, write both lists (R14). -/
theorem ccWrites_append {old mid new : Byte} {first second : List (Flag × Bool)} (h₁ : ccWrites old mid first)
    (h₂ : ccWrites mid new second) (hdisj : ∀ bit, first.lookup bit = none ∨ second.lookup bit = none) :
    ccWrites old new (first ++ second) := by
  intro bit
  rw [h₂ bit, h₁ bit, List.lookup_append]
  rcases hdisj bit with h | h <;> simp [h]

/-- `SetNZ8` after a write of flags other than N and Z writes N and Z besides them (R104). -/
theorem ccNZ8_writes_after {old mid : Byte} {writes : List (Flag × Bool)} (r : Byte) (h : ccWrites old mid writes)
    (hn : writes.lookup .n = none) (hz : writes.lookup .z = none) :
    ccWrites old (ccNZ8 mid r) (writes ++ nzOf8 r) :=
  ccWrites_append h (ccNZ8_writes mid r) fun bit => by
    cases bit with
    | n => exact .inl hn
    | z => exact .inl hz
    | _ => exact .inr rfl

/-- H, N, Z, V, C of an add-class instruction (R104, R107). -/
theorem addClass_writes (cc p q r : Byte) :
    ccWrites cc (ccNZ8 (ccAdd8 cc p q (sum9 p q)) r) (carriesOfAdd p q ++ nzOf8 r) :=
  ccNZ8_writes_after r (ccAdd8_writes cc p q) rfl rfl

/-- N, Z, V, C of a subtract-class instruction (R104, R109). -/
theorem subClass_writes (cc p q r : Byte) :
    ccWrites cc (ccNZ8 (ccSub8 cc p q (diff9 p q)) r) (carriesOfSub p q ++ nzOf8 r) :=
  ccNZ8_writes_after r (ccSub8_writes cc p q) rfl rfl

/-! ### Stored results as arithmetic (R107, R109, R121) -/

/-- The stored sum is the sum modulo 256 (R107). -/
theorem sum9_low_toNat (p q : Byte) : ((sum9 p q).setWidth 8).toNat = (p.toNat + q.toNat) % 256 := by
  rw [BitVec.toNat_setWidth, sum9_toNat]

/-- A difference of bytes is the integer difference modulo 256 (R109, R119). -/
theorem byte_sub_toNat (p q : Byte) : ((p - q).toNat : Int) = ((p.toNat : Int) - q.toNat) % 256 := by
  have := q.isLt
  rw [BitVec.toNat_sub]
  omega

/-- The stored difference is the integer difference modulo 256 (R109). -/
theorem diff9_low_toNat (p q : Byte) :
    (((diff9 p q).setWidth 8).toNat : Int) = ((p.toNat : Int) - q.toNat) % 256 := by
  rw [diff9_low, byte_sub_toNat]

/-- The product of two bytes fits in 16 bits (R121, R122). -/
theorem product_toNat (p q : Byte) : (product p q).toNat = p.toNat * q.toNat := by
  have hlt : p.toNat * q.toNat < 2 ^ 8 * 2 ^ 8 := Nat.mul_lt_mul'' p.isLt q.isLt
  rw [product, BitVec.toNat_mul, zeroExtend_toNat, zeroExtend_toNat]
  exact Nat.mod_eq_of_lt hlt

/-! ### Accumulator instructions (R105 to R121) -/

/-- Settles O15: `SetNZ8` of the loaded byte is all that follows the load. -/
theorem loadImmediateResult : Obligations.LoadImmediateResult :=
  fun s imm => ⟨⟨_, rfl, ccNZ8_writes s.cc imm⟩, ⟨_, rfl, ccNZ8_writes s.cc imm⟩⟩

/-- Settles O16: the low byte of the 9-bit sum is stored, and CC has the flags of the add class. -/
theorem addImmediateResult : Obligations.AddImmediateResult :=
  fun s imm =>
    ⟨⟨_, _, rfl, sum9_low_toNat s.a imm, addClass_writes s.cc s.a imm _⟩,
      ⟨_, _, rfl, sum9_low_toNat s.b imm, addClass_writes s.cc s.b imm _⟩⟩

/-- Settles O17: the low byte of the 9-bit difference is stored, and CC has the flags of the subtract class. -/
theorem subtractImmediateResult : Obligations.SubtractImmediateResult :=
  fun s imm =>
    ⟨⟨_, _, rfl, diff9_low_toNat s.a imm, subClass_writes s.cc s.a imm _⟩,
      ⟨_, _, rfl, diff9_low_toNat s.b imm, subClass_writes s.cc s.b imm _⟩⟩

/-- Settles O18: each of the six stores its result and then only `SetNZ8` of it follows. -/
theorem logicImmediateResult : Obligations.LogicImmediateResult := by
  intro s imm
  and_intros <;> exact ⟨_, rfl, ccNZ8_writes s.cc _⟩

/-- Settles O19: the results wrap at 8 bits, and only `SetNZ8` of them follows. -/
theorem incrementDecrementResult : Obligations.IncrementDecrementResult :=
  fun s =>
    ⟨⟨_, _, rfl, BitVec.toNat_add s.a 1#8, ccNZ8_writes s.cc _⟩,
      ⟨_, _, rfl, BitVec.toNat_add s.b 1#8, ccNZ8_writes s.cc _⟩,
      ⟨_, _, rfl, byte_sub_toNat s.a 1#8, ccNZ8_writes s.cc _⟩,
      ⟨_, _, rfl, byte_sub_toNat s.b 1#8, ccNZ8_writes s.cc _⟩⟩

/-- Settles O20: A and B are the bytes of the 16-bit product, which is exact, and `SetNZ16` looks at all of it. -/
theorem multiplyResult : Obligations.MultiplyResult := by
  intro s
  have hnz : ccWrites s.cc (ccNZ16 s.cc (product s.a s.b)) (nzOf16 (product s.a s.b)) := ccNZ16_writes s.cc _
  have hd : (s.setD (product s.a s.b)).d.toNat = s.a.toNat * s.b.toNat := by rw [d_setD, product_toNat]
  rw [nzOf16, product_toNat] at hnz
  exact ⟨_, _, _, rfl, (d_toNat _).symm.trans hd, hnz⟩

end Sys2Proof.Machine

/-! SUPPORT. The family of 42_addressing_store_lea.md: what a direct store leaves in every cell, and X plus a signed byte
as arithmetic modulo 65536. -/

namespace Sys2Proof.Machine

/-! ### Direct-page stores (R130, R134, R135) -/

/-- The direct address as arithmetic (R130). -/
theorem directAddrOf_toNat (s : State) (off : Byte) : (s.directAddrOf off).toNat = s.dp.toNat * 256 + off.toNat :=
  append_toNat s.dp off

/-- What the array holds after the core writes a byte (R41, R43). -/
theorem rawRead_memWrite (s : State) (addr other : Word) (v : Byte) (h : Memory.wf s.mem) :
    (s.memWrite addr v).rawRead other = if other = addr then v else s.rawRead other :=
  rawRead_rawWrite s addr other v h

/-- A byte written and `SetNZ8` of it, as STA and STB do: a new memory, equal to the old but at the address, and a new CC,
equal to the old but in N and Z (R134, R135). -/
theorem memWrite_setNZ8_result (s : State) (addr : Word) (v : Byte) (h : Memory.wf s.mem) :
    ∃ m' cc', (s.memWrite addr v).setNZ8 v = { s with mem := m', cc := cc' } ∧
      { s with mem := m' }.rawRead addr = v ∧
      (∀ other, other ≠ addr → { s with mem := m' }.rawRead other = s.rawRead other) ∧
      ccWrites s.cc cc' (nzOf8 v) := by
  have hread := rawRead_memWrite s addr (v := v) (h := h)
  exact ⟨_, _, rfl, (hread addr).trans (if_pos rfl), fun other ho => (hread other).trans (if_neg ho),
    ccNZ8_writes s.cc v⟩

/-- Settles O21: each accumulator is written at the direct address, and only `SetNZ8` of it follows. -/
theorem directStoreResult : Obligations.DirectStoreResult := by
  intro s off h
  obtain ⟨m, cc, hsta, hstaRest⟩ := memWrite_setNZ8_result s (s.directAddrOf off) s.a h
  obtain ⟨m', cc', hstb, hstbRest⟩ := memWrite_setNZ8_result s (s.directAddrOf off) s.b h
  exact ⟨directAddrOf_toNat s off, ⟨m, cc, congrArg Host.Outcome.next hsta, hstaRest⟩,
    ⟨m', cc', congrArg Host.Outcome.next hstb, hstbRest⟩⟩

/-! ### A word plus a signed byte (R5, R63, R131) -/

/-- A sign-extended byte is its signed value modulo 65536 (R5, R63). -/
theorem sext16_eq_ofInt (off : Byte) : sext16 off = BitVec.ofInt 16 off.toInt := rfl

/-- A word plus a sign-extended byte is the integer sum modulo 65536 (R131). -/
theorem add_sext16_toNat (base : Word) (off : Byte) :
    ((base + sext16 off).toNat : Int) = ((base.toNat : Int) + off.toInt) % 65536 := by
  have hsum : base + sext16 off = BitVec.ofInt 16 (base.toNat + off.toInt) := by
    rw [BitVec.ofInt_add, BitVec.ofInt_natCast, BitVec.ofNat_toNat, BitVec.setWidth_eq, sext16_eq_ofInt]
  rw [hsum, ofInt16_toNat]

/-- Settles O22: X and `last_ea` both get X plus the signed byte, and only `SetNZ16` of it follows. -/
theorem loadEffectiveAddressResult : Obligations.LoadEffectiveAddressResult :=
  fun s off => ⟨_, _, rfl, add_sext16_toNat s.x off, ccNZ16_writes s.cc _⟩

end Sys2Proof.Machine

/-! SUPPORT. The family of 43_control_transfer.md: RTS as the model's own pop of a word, and BRA's target as arithmetic
modulo 65536. -/

namespace Sys2Proof.Machine

/-- RTS leaves what `PopWord` leaves, and PC holds the word popped (R141). -/
theorem exec_rts (s : State) :
    exec .rts s = .next { s with
      pc := s.accessorByte s.sp 0 ++ s.accessorByte s.sp 1
      sp := offsetAddr s.sp 2, kbdPending := s.pendingAfter s.sp 2 } := by
  simp only [exec, execRts, popWord_eq]

/-- Settles O24: the word popped is the two accessor bytes, high first, and `PopWord` moves SP by 2. -/
theorem returnFromSubroutineResult : Obligations.ReturnFromSubroutineResult :=
  fun s => ⟨_, exec_rts s, append_toNat (s.accessorByte s.sp 0) (s.accessorByte s.sp 1)⟩

/-- Settles O23: only PC is written, and its target is PC plus a sign-extended byte (R140). -/
theorem branchAlwaysResult : Obligations.BranchAlwaysResult :=
  fun s rel => ⟨s.relativeTarget rel, rfl, add_sext16_toNat s.pc rel⟩

end Sys2Proof.Machine

/-! SUPPORT. The family of 44_stack_regmove.md: a word pushed and popped, the multi-register push and pull, their
cancelling, EXG and TFR, and the pull of the full frame by RTI (45_system.md R172). That a pull undoes a push rests on
two facts: what is popped is the list of bytes pushed, and a frame determines the registers it selects. -/

namespace Sys2Proof.Machine

/-! ### Popping what was pushed (R152, R153, R156) -/

/-- The addresses the accessor treats as ports are those of the parameters alone (R42, R194). -/
theorem noPortIn_of_params {s t : State} (hp : t.params = s.params) {base : Word} {n : Nat} (h : s.noPortIn base n) :
    t.noPortIn base n := by
  rwa [State.noPortIn, hp]

/-- A push leaves the parameters. -/
theorem Pushed.params {s t : State} {bs : List Byte} (h : Pushed s t bs) : t.params = s.params := by rw [h.same]

/-- A push leaves the device's pending byte. -/
theorem Pushed.kbdPending {s t : State} {bs : List Byte} (h : Pushed s t bs) : t.kbdPending = s.kbdPending := by
  rw [h.same]

/-- Past the pushed bytes lies the old SP (R150, R151). -/
theorem Pushed.offsetAddr_length {s t : State} {bs : List Byte} (h : Pushed s t bs) :
    offsetAddr t.sp bs.length = s.sp := by
  rw [offsetAddr, h.sp, BitVec.sub_add_cancel]

/-- Away from the ports the accessor gives back each pushed byte (R42, R156). -/
theorem Pushed.accessorByte {s t : State} {bs : List Byte} (h : Pushed s t bs) (hport : s.noPortIn t.sp bs.length)
    {k : Nat} (hk : k < bs.length) : t.accessorByte t.sp k = bs[k] :=
  (accessorByte_of_noPort (noPortIn_of_params h.params hport) hk).trans (h.lies k hk)

/-- Away from the ports reading the pushed bytes back leaves the device alone (R42, R156). -/
theorem Pushed.pendingAfter {s t : State} {bs : List Byte} (h : Pushed s t bs) (hport : s.noPortIn t.sp bs.length) :
    t.pendingAfter t.sp bs.length = s.kbdPending :=
  (pendingAfter_of_noPort (noPortIn_of_params h.params hport)).trans h.kbdPending

/-- Away from the ports the run of bytes the accessor gives is the list pushed (R156). -/
theorem Pushed.popped {s t : State} {bs : List Byte} (h : Pushed s t bs) (hport : s.noPortIn t.sp bs.length) :
    (List.range bs.length).map (t.accessorByte t.sp) = bs :=
  List.ext_getElem (by simp) fun k _ hk => by simp [h.accessorByte hport hk]

/-- Away from the ports `PopWord` takes two pushed bytes back, and nothing but memory is left of the push (R153). -/
theorem Pushed.popWord {s t : State} {hi lo : Byte} (h : Pushed s t [hi, lo]) (hport : s.noPortIn t.sp 2) :
    t.popWord = (hi ++ lo, { s with mem := t.mem }) := by
  have hhi : t.accessorByte t.sp 0 = hi := h.accessorByte hport (by simp)
  have hlo : t.accessorByte t.sp 1 = lo := h.accessorByte hport (by simp)
  have hsp : offsetAddr t.sp 2 = s.sp := h.offsetAddr_length
  have hpend : t.pendingAfter t.sp 2 = s.kbdPending := h.pendingAfter hport
  rw [popWord_eq, hhi, hlo, hsp, hpend, h.same]

/-- `PushWord` pushes two bytes, the high one at the lower address (R152). -/
theorem pushWord_pushed (s : State) (v : Word) (h : Memory.wf s.mem) :
    Pushed s (s.pushWord v) [highByte v, lowByte v] :=
  (Pushed.start s h).pushWord (by decide) v

/-- Settles O26: the two pushed bytes are the word's, and away from the ports `PopWord` reads just those two. -/
theorem pushedWordComesBack : Obligations.PushedWordComesBack := by
  intro s v h
  have hp := pushWord_pushed s v h
  have hsp : (s.pushWord v).sp = s.sp - 2#16 := hp.sp
  have hlo : offsetAddr (s.pushWord v).sp 1 = s.sp - 1#16 := by rw [hsp, offsetAddr]; bv_omega
  refine ⟨hsp, ?_, ?_, fun hport => ?_⟩
  · rw [← hsp, ← offsetAddr_zero (s.pushWord v).sp, hp.lies 0 (by simp)]
    exact highByte_toNat v
  · rw [← hlo, hp.lies 1 (by simp)]
    exact lowByte_toNat v
  · rw [hp.popWord (hsp ▸ hport), highByte_lowByte]

/-! ### The multi-register push (R154, R157) -/

/-- Settles O27: `pushMultiple` pushes the frame of its mask, whose length is the mask's frame size. -/
theorem pushRegistersResult : Obligations.PushRegistersResult := by
  intro s mask h
  have hp := pushMultiple_pushed s mask h
  have hlen := frameBytes_length s mask
  have hsp := hp.sp
  rw [hlen] at hsp
  refine ⟨(s.pushMultiple mask).mem, ?_, hlen, fun k hk => ?_, fun other ho => ?_⟩
  · exact congrArg Host.Outcome.next (hlen ▸ hp.same)
  · rw [← hsp]
    exact List.getElem?_eq_some_iff.2 ⟨hlen ▸ hk, (hp.lies k (hlen ▸ hk)).symm⟩
  · rw [← hsp] at ho
    exact hp.others other fun k hk => ho k (hlen ▸ hk)

/-! ### The multi-register pull (R155, R158, R172) -/

/-- The registers whose mask bit is `bit` hold the same in `t` as in `s` (R154, R155). -/
structure AgreeWhere (mask : Byte) (bit : Bool) (s t : State) : Prop where
  cc : mask.getLsbD 0 = bit → t.cc = s.cc
  a : mask.getLsbD 1 = bit → t.a = s.a
  b : mask.getLsbD 2 = bit → t.b = s.b
  dp : mask.getLsbD 3 = bit → t.dp = s.dp
  x : mask.getLsbD 4 = bit → t.x = s.x
  y : mask.getLsbD 5 = bit → t.y = s.y
  u : mask.getLsbD 6 = bit → t.u = s.u
  pc : mask.getLsbD 7 = bit → t.pc = s.pc

/-- A line of `PullMultiple` that is not done leaves its 8-bit register (R155). -/
theorem pulledByte_unselected {s : State} {bit : Bool} {n : Nat} {old : Byte} (h : bit = false) :
    pulledByte s bit n old = old := by
  rw [h]; rfl

/-- A line of `PullMultiple` that is not done leaves its 16-bit register (R155). -/
theorem pulledWord_unselected {s : State} {bit : Bool} {n : Nat} {old : Word} (h : bit = false) :
    pulledWord s bit n old = old := by
  rw [h]; rfl

/-- A pull leaves every register its mask does not select (R155). -/
theorem pullMultiple_unselected (s : State) (mask : Byte) : AgreeWhere mask false s (s.pullMultiple mask) := by
  rw [pullMultiple_eq]
  exact ⟨pulledByte_unselected, pulledByte_unselected, pulledByte_unselected, pulledByte_unselected,
    pulledWord_unselected, pulledWord_unselected, pulledWord_unselected, pulledWord_unselected⟩

/-- A pull changes registers and an attached device's pending byte only (R155, R195). -/
theorem pullMultiple_sameButRegisters (s : State) (mask : Byte) :
    sameButRegisters { s with kbdPending := (s.pullMultiple mask).kbdPending } (s.pullMultiple mask) := by
  rw [pullMultiple_eq]; rfl

/-- Settles O28: the frame after a pull is the run of accessor bytes from SP upward. -/
theorem pullRegistersResult : Obligations.PullRegistersResult := by
  intro s mask
  obtain ⟨hsp, hpend⟩ := pullMultiple_sp s mask
  obtain ⟨hcc, ha, hb, hdp, hx, hy, hu, hpc⟩ := pullMultiple_unselected s mask
  refine ⟨s.pullMultiple mask, rfl, fun k hk => ?_, hsp, hpend, hcc, ha, hb, hdp, hx, hy, hu, hpc,
    pullMultiple_sameButRegisters s mask⟩
  rw [pullMultiple_frameBytes, List.getElem?_map, List.getElem?_range hk]
  rfl

/-- Settles O34: RTI is the pull of the full mask, so every line of R155 is done. -/
theorem returnFromInterruptRestoresTheFrame : Obligations.ReturnFromInterruptRestoresTheFrame :=
  fun s => congrArg Host.Outcome.next (pullMultiple_eq s fullFrame)

/-! ### A pull after a push (R156) -/

/-- The bytes of a word determine it (R46). -/
theorem word_eq_of_bytes {v w : Word} (h : [highByte v, lowByte v] = [highByte w, lowByte w]) : v = w := by
  obtain ⟨hhi, hlo⟩ : highByte v = highByte w ∧ lowByte v = lowByte w := by simpa using h
  rw [← highByte_lowByte v, hhi, hlo, highByte_lowByte]

/-- Two frames that end in the same line of R155 are equal only if what stands before the line is, and the line's own
bytes when the line is done. -/
theorem frameLine_inj {front front' line line' : List Byte} {bit : Bool}
    (h : front ++ (if bit then line else []) = front' ++ (if bit then line' else []))
    (hlen : line.length = line'.length) :
    front = front' ∧ (bit = true → line = line') := by
  cases bit with
  | false => exact ⟨by simpa using h, nofun⟩
  | true =>
    obtain ⟨hfront, hline⟩ := List.append_inj' h hlen
    exact ⟨hfront, fun _ => hline⟩

/-- A frame determines the registers its mask selects (R155). -/
theorem agreeWhere_of_frameBytes {s t : State} {mask : Byte} (h : t.frameBytes mask = s.frameBytes mask) :
    AgreeWhere mask true s t := by
  rw [State.frameBytes, State.frameBytes] at h
  obtain ⟨h, hpc⟩ := frameLine_inj h rfl
  obtain ⟨h, hu⟩ := frameLine_inj h rfl
  obtain ⟨h, hy⟩ := frameLine_inj h rfl
  obtain ⟨h, hx⟩ := frameLine_inj h rfl
  obtain ⟨h, hdp⟩ := frameLine_inj h rfl
  obtain ⟨h, hb⟩ := frameLine_inj h rfl
  obtain ⟨h, ha⟩ := frameLine_inj h rfl
  obtain ⟨-, hcc⟩ := frameLine_inj (front := []) (front' := []) h rfl
  exact ⟨fun hm => List.singleton_inj.1 (hcc hm), fun hm => List.singleton_inj.1 (ha hm),
    fun hm => List.singleton_inj.1 (hb hm), fun hm => List.singleton_inj.1 (hdp hm),
    fun hm => word_eq_of_bytes (hx hm), fun hm => word_eq_of_bytes (hy hm),
    fun hm => word_eq_of_bytes (hu hm), fun hm => word_eq_of_bytes (hpc hm)⟩

/-- Registers that agree whether selected or not agree. -/
theorem AgreeWhere.all {mask : Byte} {s t : State} (hsel : AgreeWhere mask true s t)
    (hunsel : AgreeWhere mask false s t) :
    t.cc = s.cc ∧ t.a = s.a ∧ t.b = s.b ∧ t.dp = s.dp ∧ t.x = s.x ∧ t.y = s.y ∧ t.u = s.u ∧ t.pc = s.pc := by
  have either : ∀ {bit : Bool} {p : Prop}, (bit = true → p) → (bit = false → p) → p :=
    fun ht hf => (Bool.eq_false_or_eq_true _).elim ht hf
  exact ⟨either hsel.cc hunsel.cc, either hsel.a hunsel.a, either hsel.b hunsel.b, either hsel.dp hunsel.dp,
    either hsel.x hunsel.x, either hsel.y hunsel.y, either hsel.u hunsel.u, either hsel.pc hunsel.pc⟩

/-- A pull of bytes the selected registers hold already moves SP past them and changes no register (R155). -/
theorem pullMultiple_of_frame_held {s : State} {mask : Byte}
    (h : (List.range (frameSize mask)).map (s.accessorByte s.sp) = s.frameBytes mask) :
    s.pullMultiple mask = { s with
      sp := offsetAddr s.sp (frameSize mask), kbdPending := s.pendingAfter s.sp (frameSize mask) } := by
  obtain ⟨hcc, ha, hb, hdp, hx, hy, hu, hpc⟩ :=
    (agreeWhere_of_frameBytes ((pullMultiple_frameBytes s mask).trans h)).all (pullMultiple_unselected s mask)
  obtain ⟨hsp, hpend⟩ := pullMultiple_sp s mask
  have hsame := pullMultiple_sameButRegisters s mask
  rwa [sameButRegisters, hcc, ha, hb, hdp, hx, hy, hu, hpc, hsp, hpend] at hsame

/-- A push leaves the registers, so their frame (R154). -/
theorem Pushed.frameBytes {s t : State} {bs : List Byte} (h : Pushed s t bs) (mask : Byte) :
    t.frameBytes mask = s.frameBytes mask := by
  rw [h.same]; rfl

/-- Settles O29: what is popped is the frame pushed, which the registers still hold, so only SP moves, back to where it
was. -/
theorem pullAfterPushRestoresEverything : Obligations.PullAfterPushRestoresEverything := by
  intro s mask h hport
  have hp := pushMultiple_pushed s mask h
  generalize s.pushMultiple mask = t at hp
  have hlen := frameBytes_length s mask
  rw [← hlen, ← hp.sp] at hport
  have hheld : (List.range (frameSize mask)).map (t.accessorByte t.sp) = t.frameBytes mask := by
    rw [← hlen, hp.popped hport, hp.frameBytes]
  rw [pullMultiple_of_frame_held hheld, ← hlen, hp.offsetAddr_length, hp.pendingAfter hport, hp.same]

/-! ### EXG and TFR (R159 to R162) -/

/-- Sharing storage is symmetric (R12). -/
theorem regOverlaps_comm (r q : RegCode) : regOverlaps r q = regOverlaps q r := by
  cases r <;> cases q <;> simp [regOverlaps, eq_comm]

/-- Two changes of registers in a row are one (R161). -/
theorem sameButRegisters.trans {s t u : State} (hst : sameButRegisters s t) (htu : sameButRegisters t u) :
    sameButRegisters s u := by
  rw [sameButRegisters] at hst htu
  rw [sameButRegisters, htu, hst]

/-- A zero-extended byte has the byte as its low half (R159, R160). -/
@[simp] theorem lowByte_zeroExtend (p : Byte) : lowByte (p.setWidth 16) = p := by
  apply BitVec.eq_of_toNat_eq
  rw [lowByte_toNat, zeroExtend_toNat, Nat.mod_eq_of_lt p.isLt]

/-- A zero-extended byte has no high half (R159). -/
@[simp] theorem highByte_zeroExtend (p : Byte) : highByte (p.setWidth 16) = 0#8 := by
  apply BitVec.eq_of_toNat_eq
  rw [highByte_toNat, zeroExtend_toNat, Nat.div_eq_of_lt p.isLt]; rfl

/-- Writing to a code what it reads as changes nothing (R159, R160). -/
theorem writeReg_readReg_self (s : State) (r : RegCode) : s.writeReg r (s.readReg r) = s := by
  cases r with
  | d => simp [State.writeReg, State.readReg, State.setD, State.d]
  | a | b | cc | dp => simp [State.writeReg, State.readReg]
  | _ => rfl

/-- What EXG leaves (R161). -/
def State.exchanged (s : State) (r1 r2 : RegCode) : State :=
  (s.writeReg r1 (s.readReg r2)).writeReg r2 (s.readReg r1)

/-- EXG answers the exchanged state (R161). -/
theorem exec_exg (r1 r2 : RegCode) (s : State) : exec (.exg r1 r2) s = .next (s.exchanged r1 r2) := rfl

/-- Registers that share no storage are exchanged: the second write does not reach what the first has written (R161). -/
theorem exchanged_of_disjoint (s : State) {r1 r2 : RegCode} (h : regOverlaps r1 r2 = false) :
    (s.exchanged r1 r2).readReg r1 = regTruncate r1 (s.readReg r2) ∧
      (s.exchanged r1 r2).readReg r2 = regTruncate r2 (s.readReg r1) := by
  refine ⟨?_, readReg_writeReg_same _ r2 _⟩
  rw [State.exchanged, readReg_writeReg_other _ _ (regOverlaps_comm r1 r2 ▸ h), readReg_writeReg_same]

/-- The second write of an exchange of D with one of its halves has the last word (R161). -/
theorem exchanged_d (s : State) :
    s.exchanged .d .a = { s with a := s.b, b := s.a } ∧ s.exchanged .d .b = { s with a := 0#8, b := s.b } ∧
      s.exchanged .a .d = { s with a := 0#8, b := s.a } ∧ s.exchanged .b .d = { s with a := 0#8, b := s.b } := by
  simp [State.exchanged, State.writeReg, State.readReg, State.setD, State.d]

/-- Settles O30: two writes of values read before either, so each clause is what the second write leaves of the
first. -/
theorem exchangeRegistersResult : Obligations.ExchangeRegistersResult := by
  intro s r1 r2
  obtain ⟨hda, hdb, had, hbd⟩ := exchanged_d s
  refine ⟨s.exchanged r1 r2, exec_exg r1 r2 s, exchanged_of_disjoint s, ?_, ?_, ?_, ?_, ?_, fun q h1 h2 => ?_,
    (writeReg_same s r1 _).trans (writeReg_same _ r2 _)⟩
  · rintro rfl
    rw [State.exchanged, writeReg_readReg_self, writeReg_readReg_self]
  · rintro rfl rfl; exact hda
  · rintro rfl rfl; exact hdb
  · rintro rfl rfl; exact had
  · rintro rfl rfl; exact hbd
  · rw [State.exchanged, readReg_writeReg_other _ _ h2, readReg_writeReg_other _ _ h1]

/-- Settles O31: one write of the source's value to the destination. -/
theorem transferRegisterResult : Obligations.TransferRegisterResult := by
  intro s r1 r2
  refine ⟨s.writeReg r2 (s.readReg r1), rfl, readReg_writeReg_same s r2 _,
    fun q => readReg_writeReg_other s _, ?_, ?_, writeReg_same s r2 _⟩
  · rintro c rfl; rfl
  · rintro c rfl; rfl

end Sys2Proof.Machine

/-! SUPPORT. The family of 45_system.md: NOP, SYNC, and RTI right after an interrupt entry. -/

namespace Sys2Proof.Machine

/-! ### NOP and SYNC (R170, R171) -/

/-- Settles O32: the byte 12 decodes to NOP, so the step is the counted identity on the fetched state. -/
theorem nopChangesNothing : Obligations.NopChangesNothing := by
  refine ⟨fun _ => rfl, fun s hf hop => ?_⟩
  have hd : decode s.bytesAtPc = .ok (.nop, [s.rawRead (s.pc + 1#16)]) := by
    rw [State.bytesAtPc, hop]
    exact Laws.RoundTrip.nop rfl _
  rw [step_of_decode hf hd]
  rfl

/-- Settles O33: the halt is SYNC's whole effect, and a halted core does nothing. -/
theorem syncHaltsTheCore : Obligations.SyncHaltsTheCore := fun _ => ⟨rfl, step_of_halted rfl⟩

/-! ### RTI after an interrupt entry (R172, R189, R190) -/

/-- Each of the eight registers is in the full frame, four of them words (R172). -/
theorem frameBytes_fullFrame_length (r : State) : (r.frameBytes fullFrame).length = 12 := frameBytes_length r fullFrame

/-- Away from the ports RTI takes all the registers of `r` from a frame of `r` that was pushed, and moves SP back to where
it was before the push (R172, R189). -/
theorem Pushed.returnFromInterrupt {s t r : State} (h : Pushed s t (r.frameBytes fullFrame))
    (hport : s.noPortIn t.sp 12) :
    t.returnFromInterrupt = { t with
      cc := r.cc, a := r.a, b := r.b, dp := r.dp, x := r.x, y := r.y, u := r.u, pc := r.pc,
      sp := s.sp, kbdPending := s.kbdPending } := by
  have hsize : frameSize fullFrame = (r.frameBytes fullFrame).length := (frameBytes_length r fullFrame).symm
  rw [← frameBytes_fullFrame_length r] at hport
  have hframe : (t.pullMultiple fullFrame).frameBytes fullFrame = r.frameBytes fullFrame := by
    rw [pullMultiple_frameBytes, hsize, h.popped hport]
  obtain ⟨hcc, ha, hb, hdp, hx, hy, hu, hpc⟩ := agreeWhere_of_frameBytes hframe
  obtain ⟨hsp, hpend⟩ := pullMultiple_sp t fullFrame
  rw [hsize, h.offsetAddr_length] at hsp
  rw [hsize, h.pendingAfter hport] at hpend
  have hsame := pullMultiple_sameButRegisters t fullFrame
  rwa [sameButRegisters, hcc rfl, ha rfl, hb rfl, hdp rfl, hx rfl, hy rfl, hu rfl, hpc rfl, hsp, hpend] at hsame

/-- What a push says is about SP and memory only, so it carries over to any state that shares them (R150). -/
theorem Pushed.of_sp_mem {s t v : State} {bs : List Byte} (h : Pushed s t bs) (hsp : v.sp = t.sp)
    (hmem : v.mem = t.mem) : Pushed { v with sp := s.sp, mem := s.mem } v bs := by
  have hread : v.rawRead = t.rawRead := by funext addr; rw [State.rawRead, State.rawRead, hmem]
  refine ⟨congrArg (fun w => { v with sp := w }) (hsp.trans h.sp), hmem ▸ h.wf, ?_, ?_⟩
  · rw [hread, hsp]; exact h.lies
  · rw [hread, hsp]; exact h.others

/-- The interrupt entry has pushed the frame of the interrupted registers with E set: setting I and reading the vector
touch neither SP nor memory (R185, R189). -/
theorem serviceInterrupt_frame (s : State) (h : Memory.wf s.mem) :
    Pushed { s.serviceInterrupt with sp := s.sp, mem := s.mem } s.serviceInterrupt
      (({ s with cc := s.cc ||| 0x80#8 } : State).frameBytes fullFrame) :=
  (serviceInterrupt_pushed s h).of_sp_mem (by rw [serviceInterrupt_eq]) (by rw [serviceInterrupt_eq])

/-- Settles O50: RTI pops the frame just pushed, and what it does not pop is as the entry left it. -/
theorem returnUndoesInterruptEntry : Obligations.ReturnUndoesInterruptEntry := by
  intro s h hr hi hport
  refine ⟨s.serviceInterrupt, _, step_of_request hr hi, rfl, ?_⟩
  have hp := serviceInterrupt_frame s h
  have hsp : s.serviceInterrupt.sp = s.sp - 12#16 :=
    frameBytes_fullFrame_length { s with cc := s.cc ||| 0x80#8 } ▸ hp.sp
  obtain ⟨-, -, hparams, -⟩ := serviceInterrupt_keeps s
  rw [← hsp] at hport
  rw [hp.returnFromInterrupt (noPortIn_of_params hparams hport), serviceInterrupt_eq]

end Sys2Proof.Machine

/-! SUPPORT. The family of 60_exceptions.md: runs of steps, the interrupt request, the run-state machine, the arrival of
a byte at the device, and the breakpoint set. -/

namespace Sys2Proof.Machine

/-! ### Runs of steps (R91, R203) -/

/-- A run of `n + 1` steps is one step and a run of `n`. -/
theorem run_succ {s t : State} (n : Nat) (h : step s = .next t) :
    Host.Core.run Sys2Proof.core (n + 1) s = Host.Core.run Sys2Proof.core n t := by
  have hstep : Sys2Proof.core.step s = .next t := h
  simp only [Host.Core.run, hstep]

/-- Settles O45, by induction on the number of steps: every step answers a next state. -/
theorem everyRunOfStepsGoesOn : Obligations.EveryRunOfStepsGoesOn := by
  intro n
  induction n with
  | zero => exact fun s => ⟨s, rfl⟩
  | succ n ih =>
    intro s
    obtain ⟨t, ht⟩ := step_next s
    rw [run_succ n ht]
    exact ih t

/-- What every step keeps, every run of steps keeps. -/
theorem run_keeps {P : State → Prop} (hP : ∀ s t, P s → step s = .next t → P t) {n : Nat} {s t : State}
    (hs : P s) (ht : Host.Core.run Sys2Proof.core n s = .next t) : P t := by
  induction n generalizing s with
  | zero => cases ht; exact hs
  | succ n ih =>
    obtain ⟨u, hu⟩ := step_next s
    rw [run_succ n hu] at ht
    exact ih (hP s u hs hu) ht

/-! ### The interrupt request (R182, R184) -/

/-- A request made while CC.I is set is dropped (R182). -/
theorem triggerIRQ_of_masked {s : State} (h : s.getFlag .i = true) : s.triggerIRQ = s := by
  simp [triggerIRQ_eq, h]

/-- A request made while CC.I is clear becomes pending, and that is all it does (R182). -/
theorem triggerIRQ_of_unmasked {s : State} (h : s.getFlag .i = false) :
    s.triggerIRQ = { s with irqPending := true } := by
  simp [triggerIRQ_eq, h]

/-- Settles O47: an accepted request is pending, so the next step services it unless the core is halted, and a halted
core does nothing. -/
theorem triggerIsAcceptedOnlyUnmasked : Obligations.TriggerIsAcceptedOnlyUnmasked := by
  intro s
  refine ⟨triggerIRQ_of_masked, triggerIRQ_of_unmasked, fun hi hr => ?_, fun hi hr n => ?_⟩ <;>
    rw [triggerIRQ_of_unmasked hi]
  · exact step_of_request hr rfl
  · have hstill : step { s with irqPending := true } = .next { s with irqPending := true } := step_of_halted hr
    exact run_of_step_self hstill n

/-- No step makes a request pending (R91). -/
theorem step_irqPending {s t : State} (hs : s.irqPending = false) (ht : step s = .next t) : t.irqPending = false := by
  obtain ⟨-, -, -, -, hreq, -⟩ := systemStateChangesOnlyInItsCase s t ht
  exact Bool.eq_false_iff.2 fun h => Bool.eq_false_iff.1 hs (hreq h)

/-- Settles O48: the request is dropped, and no step of the run makes another. -/
theorem maskedRequestIsLost : Obligations.MaskedRequestIsLost := by
  intro n s t hmask hs ht
  rw [triggerIRQ_of_masked hmask] at ht
  exact run_keeps (P := fun u => u.irqPending = false) (fun _ _ => step_irqPending) hs ht

/-! ### The run-state machine (R188) -/

/-- The state a step answers, where the step is known. -/
theorem eq_of_step {s t u : State} (h : step s = .next u) (ht : step s = .next t) : t = u := by
  rw [h] at ht
  cases ht
  rfl

/-- A step that executes an instruction ends Running, but for SYNC (R171, R188). -/
theorem runState_of_decode {s t : State} {i : Instr} {rest : List Byte} (hf : s.fetches)
    (hd : decode s.bytesAtPc = .ok (i, rest)) (ht : step s = .next t) :
    t.runState = if i = .sync then .halted else .running := by
  obtain ⟨u, hu, rfl⟩ := exec_of_step hf hd ht
  obtain ⟨-, hrun⟩ := exec_keepsSystem hu
  simpa [hf.running] using hrun

/-- A step at an unmapped key waits on the wait opcode and halts on any other (R71, R181, R188). -/
theorem runState_of_unknown {s t : State} {key : Key} (hf : s.fetches)
    (hd : decode s.bytesAtPc = .error (.unknownOpcode key)) (ht : step s = .next t) :
    t.runState = if s.params.waitOpcode = some key then .waitingForInterrupt else .halted := by
  obtain ⟨-, n, -, -, hrun⟩ := runInstruction_of_unknown hd
  rw [step_of_fetches hf, hrun] at ht
  split at ht <;> cases ht
  · next hw => rw [if_pos hw]; rfl
  · next hw => rw [if_neg hw]; rfl

/-- Settles O51, row by row: three rows are steps that do nothing, one is the interrupt service, two are the endings of
a step that fetches. -/
theorem runStatesChangeAsTheTableSays : Obligations.RunStatesChangeAsTheTableSays := by
  intro s t ht
  refine ⟨fun hr => ?halted, fun hr hi => ?waiting, fun hr hi => ?service, fun hr hi hb => ?stalled,
    fun hf _ _ hd => runState_of_decode hf hd ht, fun hf _ hd => runState_of_unknown hf hd ht, by simp, rfl⟩
  case halted => exact eq_of_step (step_of_halted hr) ht ▸ hr
  case waiting => exact eq_of_step (step_of_waiting hr hi) ht ▸ hr
  case service => rw [eq_of_step (step_of_request hr hi) ht, serviceInterrupt_eq]
  case stalled => exact eq_of_step (step_of_breakpoint hr hi hb) ht ▸ hr

/-! ### The arrival of a byte (R197) -/

/-- What the device leaves in its two cells touches no other cell (R197). -/
theorem rawRead_publish_other (s : State) {ports : KbdPorts} {other : Word} (hd : other ≠ ports.dataAddr)
    (hs : other ≠ ports.statusAddr) : (s.publish ports).rawRead other = s.rawRead other :=
  (rawRead_rawWrite_other _ _ hs).trans (rawRead_rawWrite_other s _ hd)

/-- The arrival of a byte at an attached device, as every field that differs from the state before (R197). -/
theorem inputArrival_eq (s : State) (k : Byte) {ports : KbdPorts} (h : s.params.kbd = some ports) :
    s.inputArrival k = { s with
      kbdBuffer := k, kbdPending := true, irqPending := s.irqPending || !s.getFlag .i,
      mem := (s.publish ports).mem, freeCount := s.freeCount + 1 } := by
  rw [inputArrival_attached s k h, triggerIRQ_eq]
  rfl

/-- Settles O53: the fields that differ are those of the statement, and memory is as the device leaves it. -/
theorem arrivingByteIsBufferedAndRequests : Obligations.ArrivingByteIsBufferedAndRequests := by
  intro s k ports hp
  rw [inputArrival_eq s k hp]
  exact ⟨rfl, rfl, rfl, fun _ hd hs => rawRead_publish_other s hd hs, rfl⟩

/-! ### The breakpoint set (R200) -/

/-- Removing an address leaves the others (R200). -/
theorem mem_removeBreakpoint (s : State) (addr : Int) (x : Word) :
    x ∈ (s.removeBreakpoint addr).breakpoints ↔ x ≠ BitVec.ofInt 16 addr ∧ x ∈ s.breakpoints := by
  simp [State.removeBreakpoint, and_comm]

/-- Removing an address that is not in the set changes nothing (R200). -/
theorem removeBreakpoint_absent {s : State} {addr : Int} (h : BitVec.ofInt 16 addr ∉ s.breakpoints) :
    s.removeBreakpoint addr = s := by
  have hkeep : s.breakpoints.filter (· != BitVec.ofInt 16 addr) = s.breakpoints :=
    List.filter_eq_self.2 fun x hx => bne_iff_ne.2 fun he => h (he ▸ hx)
  rw [State.removeBreakpoint, hkeep]

/-- Adding an address that is in the set changes nothing (R200). -/
theorem addBreakpoint_present {s : State} {addr : Int} (hsorted : s.breakpoints.Pairwise (· < ·))
    (h : BitVec.ofInt 16 addr ∈ s.breakpoints) : s.addBreakpoint addr = s := by
  rw [State.addBreakpoint, insertAddr_present _ _ hsorted h]

/-- Settles O54: the list is rising, so an address already there is found and not inserted again. -/
theorem breakpointsAreASetOfMaskedAddresses : Obligations.BreakpointsAreASetOfMaskedAddresses := by
  intro s addr x
  refine ⟨mem_insertAddr _ x _, mem_removeBreakpoint s addr x, removeBreakpoint_absent, rfl, rfl, fun h => ?_, rfl⟩
  have hsorted : (s.addBreakpoint addr).breakpoints.Pairwise (· < ·) := insertAddr_sorted _ _ h
  exact ⟨hsorted, addBreakpoint_present hsorted ((mem_insertAddr _ _ _).2 (.inl rfl))⟩

end Sys2Proof.Machine
